-- ==== Sys2Proof/Word.lean ====
section
/-! DEFINITION. The unit's data types: bytes, 32-bit register words, byte strings and 16-byte blocks
(00_scope.md R5, R9, R10, R11).  Blocks are sequences of bytes, never numbers (20_memory.md R59). -/

namespace Sys2Proof

/-- The buffer cell, 8 bits (R9); a byte string is written first byte first (R10). -/
abbrev Byte := BitVec 8

/-- The register width, 32 bits (R9). -/
abbrev Word := BitVec 32

/-- A byte string, index 0 first (R11). -/
abbrev Bytes := List Byte

/-- A 16-byte block, key or IV: BLOCK = KEYLEN = IVLEN = 16 (R5). -/
abbrev Block := Vector Byte 16

/-- Sixteen bytes 0x00. -/
def Block.zero : Block := Vector.replicate 16 0#8

/-- A byte string of length 16 as a block, byte `j` of the string at index `j` (R59). -/
def Block.ofBytes (x : Bytes) (h : x.length = 16) : Block := ⟨x.toArray, by simpa using h⟩

/-- A block as a byte string, index 0 first (R59). -/
def Block.bytes (b : Block) : Bytes := b.toList

end Sys2Proof
end

