-- ==== Sys2Proof/Syntax.lean ====
section
/-! DEFINITION. The command set and the fields of a command word (30_encoding.md R80 to R82; spec/opcode_table.json). -/

namespace Sys2Proof

/-- The four commands (R82).  Format C carries no operands: they are implicit (R81). -/
inductive Instr where
  /-- LDKEY, `validate_key` (41_validator_commands.md R130). -/
  | ldkey
  /-- VENV, `validate_envelope_length` (41_validator_commands.md R131). -/
  | venv
  /-- ENC, `encode` (42_codec_commands.md R140). -/
  | enc
  /-- DEC, `decode` (42_codec_commands.md R141). -/
  | dec
deriving DecidableEq, Repr

/-- The two fields of format C (R80). -/
structure CommandWord where
  /-- RSV, bits 31:8, reserved. -/
  rsv : BitVec 24
  /-- OP, bits 7:0, the operation number. -/
  op : BitVec 8
deriving DecidableEq, Repr

end Sys2Proof
end

