-- ==== Sys2Proof/WellFormed.lean ====
section
/-! DEFINITION. Which field values make a command word a command (30_encoding.md R80, R82).  An `Instr` has no operand, so there
is nothing in it to be ill-formed; the checks are on the fields of the word that stands for it. -/

namespace Sys2Proof

/-- RSV "must be 0x000000" (R80). -/
def CommandWord.reservedClear (c : CommandWord) : Bool := c.rsv == 0

/-- OP is one of the four operation numbers of R82. -/
def CommandWord.operationAssigned (c : CommandWord) : Bool :=
  c.op == 0x01 || c.op == 0x02 || c.op == 0x03 || c.op == 0x04

/-- Both checks. -/
def CommandWord.wellFormed (c : CommandWord) : Bool := c.reservedClear && c.operationAssigned

end Sys2Proof
end

