-- ==== Sys2Proof/Decode.lean ====
section
/-! DEFINITION. Decode, total on every 32-bit word (30_encoding.md R80, R84), and the encoder (R82). -/

namespace Sys2Proof

/-- Why a word is illegal, by name.  The spec has one verdict, illegal, for both (R84, R85). -/
inductive IllegalWord where
  /-- RSV is not zero, whatever OP is. -/
  | reservedNonzero (rsv : BitVec 24)
  /-- RSV is zero and OP is no operation number: 0x00 or 0x05 to 0xFF. -/
  | operationUnassigned (op : BitVec 8)
deriving DecidableEq, Repr

/-- The fields of a word: RSV = w[31:8], OP = w[7:0] (R80). -/
def wordFields (w : Word) : CommandWord where
  rsv := w.extractLsb' 8 24
  op := w.extractLsb' 0 8

/-- The word of two fields (R80). -/
def fieldsWord (c : CommandWord) : Word := c.rsv ++ c.op

/-- Decode on the fields, in the order of R84. -/
def decodeFields (c : CommandWord) : Except IllegalWord Instr :=
  if c.rsv ≠ 0 then .error (.reservedNonzero c.rsv)
  else if c.op = 0x01 then .ok .ldkey
  else if c.op = 0x02 then .ok .venv
  else if c.op = 0x03 then .ok .enc
  else if c.op = 0x04 then .ok .dec
  else .error (.operationUnassigned c.op)

/-- `Decode(w)` (R84): it reads nothing but `w`. -/
def decode (w : Word) : Except IllegalWord Instr := decodeFields (wordFields w)

/-- The fields of each command's word (R82). -/
def fieldsOf : Instr → CommandWord
  | .ldkey => ⟨0, 0x01⟩
  | .venv => ⟨0, 0x02⟩
  | .enc => ⟨0, 0x03⟩
  | .dec => ⟨0, 0x04⟩

/-- The word of a command (R82). -/
def encode (i : Instr) : Word := fieldsWord (fieldsOf i)

/-- The instruction the decoder reads from the bits of `w`, `nbits` of them, bits above being 0.  A command is one 32-bit write
(R86), so a wider row would be none. -/
def decodeTableWord (nbits w : Nat) : Option Instr :=
  if nbits ≤ 32 then
    match decode (BitVec.ofNat 32 (w % 2 ^ nbits)) with
    | .ok i => some i
    | .error _ => none
  else none

end Sys2Proof
end

