-- ==== Sys2Proof/Machine/ChainingController.lean ====
section
/-! DEFINITION. The block-chaining controller (40_datapath_functions.md R101, R102, R108, R109), over any cipher.  Where the spec gives a
function no meaning (a length that is no multiple of 16) its argument's type rules the case out. -/

namespace Sys2Proof.Machine

/-- `xor16(a, b)[j] = a[j] XOR b[j]` (R101). -/
def xor16 (a b : Block) : Block := Vector.ofFn fun j => a[j] ^^^ b[j]

/-- `n` blocks cut off a string of exactly `16*n` bytes. -/
def blocksOf : (n : Nat) → (x : Bytes) → x.length = 16 * n → List Block
  | 0, _, _ => []
  | n + 1, x, h =>
    Block.ofBytes (x.take 16) (by rw [List.length_take, h]; omega) ::
      blocksOf n (x.drop 16) (by rw [List.length_drop, h]; omega)

/-- `Blocks(x)`, for `|x|` a multiple of 16 (R102). -/
def blocks (x : Bytes) (h : x.length % 16 = 0) : List Block := blocksOf (x.length / 16) x (by omega)

/-- `X_1 || X_2 || ... || X_n`. -/
def joinBlocks (bs : List Block) : Bytes := bs.flatMap Block.bytes

/-- `C_i = BlockEncrypt(k, P_i XOR C_{i-1})`, `prev` being `C_{i-1}` (R108). -/
def cbcEncBlocks (encrypt : Block → Block → Block) (k : Block) : (prev : Block) → List Block → List Block
  | _, [] => []
  | prev, p :: rest =>
    let c := encrypt k (xor16 p prev)
    c :: cbcEncBlocks encrypt k c rest

/-- `P_i = BlockDecrypt(k, C_i) XOR C_{i-1}`, `prev` being `C_{i-1}` as received (R109). -/
def cbcDecBlocks (decrypt : Block → Block → Block) (k : Block) : (prev : Block) → List Block → List Block
  | _, [] => []
  | prev, c :: rest => xor16 (decrypt k c) prev :: cbcDecBlocks decrypt k c rest

/-- `CbcEnc(k, iv, x)` (R108). -/
def cbcEnc (encrypt : Block → Block → Block) (k iv : Block) (x : Bytes) (h : x.length % 16 = 0) : Bytes :=
  joinBlocks (cbcEncBlocks encrypt k iv (blocks x h))

/-- `CbcDec(k, iv, c)` (R109). -/
def cbcDec (decrypt : Block → Block → Block) (k iv : Block) (c : Bytes) (h : c.length % 16 = 0) : Bytes :=
  joinBlocks (cbcDecBlocks decrypt k iv (blocks c h))

end Sys2Proof.Machine
end

