-- ==== Sys2Proof/Machine/EnvelopeFramer.lean ====
section
/-! DEFINITION. The envelope framer (40_datapath_functions.md R111, R112). -/

namespace Sys2Proof.Machine

/-- `Frame(iv, c) = iv || c` (R111). -/
def frame (iv : Block) (c : Bytes) : Bytes := iv.bytes ++ c

/-- `Split(e) = (e[0:16], e[16:])`, for `|e| >= 16` (R112). -/
def split (e : Bytes) (h : 16 ≤ e.length) : Block × Bytes :=
  (Block.ofBytes (e.take 16) (by rw [List.length_take]; omega), e.drop 16)

end Sys2Proof.Machine
end

