-- ==== Sys2Proof/Machine/LengthChecks.lean ====
section
/-! DEFINITION. The length checks of the two validators (40_datapath_functions.md R113, R114). -/

namespace Sys2Proof.Machine

/-- `ValidKey(L)`: the presented key has 16 bytes (R113). -/
def validKey (len : Nat) : Bool := len == 16

/-- `ValidEnvLen(L)`: none of the three conditions holds, tested in this order (R114).  Below 16 the first disjunct holds, so the
truncated subtraction is never looked at. -/
def validEnvLen (len : Nat) : Bool := !(decide (len < 16) || (len - 16) % 16 != 0 || len - 16 == 0)

/-- An accepted envelope holds an IV (R114). -/
theorem validEnvLen_ge {len : Nat} (h : validEnvLen len = true) : 16 ≤ len := by
  simp [validEnvLen] at h; omega

/-- What follows the IV of an accepted envelope is a whole number of blocks (R114). -/
theorem validEnvLen_rest {len : Nat} (h : validEnvLen len = true) : (len - 16) % 16 = 0 := by
  simp [validEnvLen] at h; omega

end Sys2Proof.Machine
end

