-- ==== Sys2Proof/Machine/State.lean ====
section
/-! DEFINITION. The state of the unit (10_state.md R20 to R29), the host at its port (00_scope.md R13, R14; 20_memory.md R50, R54),
the reasons a step could stop, and the state after reset (10_state.md R40). -/

namespace Sys2Proof.Machine

/-- No step of the unit faults: "There is no third, \"fault\" outcome that stops the unit" (00_scope.md R17), so no reason exists.
Raised by nobody; safe. -/
inductive Fault where
deriving DecidableEq, Repr

/-- Why a step has no meaning. -/
inductive Refusal where
  /-- Raised by an arm of `exec` whose command has no meaning yet: by none.  Safe: the model stops where the unit goes on. -/
  | notModelled (mnemonic : String)
deriving DecidableEq, Repr

/-- The error kinds a command can end with, and FileAccessError, whose number is reserved and which the unit never raises
(60_exceptions.md R161). -/
inductive ErrorKind where
  | fileAccess
  | invalidKey
  | invalidEnvelope
  | paddingValidation
  | illegalCommand
  | capacity
deriving DecidableEq, Repr

/-- Buffer contents as (index, byte) pairs, indices strictly rising, no byte 0x00 listed; an unlisted index reads 0x00, the reset
contents (10_state.md R40). -/
abbrev Memory := List Host.Cell

/-- The working registers of a block-level datapath (10_state.md R29).  They are no architectural state: every completion and reset
leaves them 0, and no host access and no later command reads them. -/
structure Working where
  /-- IVR, the IV of the command. -/
  ivr : Block
  /-- CHAIN, the previous ciphertext block. -/
  chain : Block
  /-- WORK, the block in flight. -/
  work : Block
  /-- T, the plaintext block DEC has just recovered. -/
  t : Block
  /-- BLKIDX, a count; its width is the implementation's (R29). -/
  blkIdx : Nat
  /-- NBLK, a count. -/
  nblk : Nat
  /-- PB, the last decrypted byte before its range check. -/
  pb : BitVec 8
  /-- PADLEN, the padding value once known to be 1 to 16. -/
  padLen : BitVec 5
deriving DecidableEq, Repr

/-- Every working register 0. -/
def Working.zero : Working :=
  ⟨Block.zero, Block.zero, Block.zero, Block.zero, 0, 0, 0, 0⟩

/-- The three address spaces (20_memory.md R50). -/
inductive Space where
  | reg
  | ibuf
  | obuf
deriving DecidableEq, Repr

/-- The five registers of the REG space (10_state.md R36). -/
inductive Reg where
  | cmd
  | status
  | errcode
  | ilen
  | olen
deriving DecidableEq, Repr

/-- The width of a host access in bits. -/
inductive Width where
  | w8
  | w16
  | w32
  /-- Any other width a bus may offer; no such access is admitted (20_memory.md R54). -/
  | other (bits : Nat)
deriving DecidableEq, Repr

/-- The value of a host write, with its width. -/
inductive Data where
  | byte (b : Byte)
  | half (h : BitVec 16)
  | word (w : Word)
  | other (bits value : Nat)
deriving DecidableEq, Repr

/-- What a host may attempt at the port: every access, admitted or not (20_memory.md R54). -/
inductive Access where
  /-- HostRead(space, addr) of a width. -/
  | read (space : Space) (width : Width) (addr : Nat)
  /-- HostWrite(space, addr, v); the width is the value's. -/
  | write (space : Space) (addr : Nat) (value : Data)
deriving DecidableEq, Repr

/-- What can happen to the unit from outside: an access, or a reset between accesses (70_reset_and_hazards.md R190). -/
inductive HostEvent where
  | access (a : Access)
  | reset
deriving DecidableEq, Repr

/-- What the port returned to the host for its last access (00_scope.md R17). -/
inductive Answer where
  /-- No access since reset. -/
  | none
  /-- Read data of a 32-bit read. -/
  | word (w : Word)
  /-- Read data of a byte read. -/
  | byte (b : Byte)
  /-- A write was performed. -/
  | done
  /-- The access was not admitted; returned data, if any, has no meaning. -/
  | refused
deriving DecidableEq, Repr

/-- The state: the tuple of 10_state.md R20 field for field, the working registers of R29, and three fields of the model's own for
what stands outside the unit: the host's events still to come, the last answer it got, and how many draws have been taken. -/
structure State where
  /-- KEY (R21). -/
  key : Block
  /-- KEYVALID (R22). -/
  keyValid : Bool
  /-- IBUF (R23). -/
  ibuf : Memory
  /-- ILEN (R24). -/
  ilen : Word
  /-- OUT (R25). -/
  out : Bytes
  /-- OK (R26). -/
  ok : Bool
  /-- ERR (R26). -/
  err : Bool
  /-- ERRCODE, 4 bits (R27). -/
  errCode : BitVec 4
  /-- The working registers (R29). -/
  work : Working
  /-- The model's own: the host's events still to come, the next one first (log entry 1). -/
  pending : List HostEvent
  /-- The model's own: the answer to the last access (log entry 2). -/
  answer : Answer
  /-- The model's own: how many draws have been taken (log entry 4). -/
  draws : Nat
deriving DecidableEq, Repr

/-- The state after reset (R40).  The last three fields are the model's own: nothing pending, nothing answered, and a count of draws
whose value 0 is a DESIGN CHOICE no statement rests on (log entry 4). -/
def State.reset : State where
  key := Block.zero
  keyValid := false
  ibuf := []
  ilen := 0
  out := []
  ok := false
  err := false
  errCode := 0
  work := Working.zero
  pending := []
  answer := .none
  draws := 0

end Sys2Proof.Machine
end

