-- ==== Sys2Proof/Machine/PaddingUnit.lean ====
section
/-! DEFINITION. The PKCS#7 padding unit (40_datapath_functions.md R103 to R106): pure functions on byte strings. -/

namespace Sys2Proof.Machine

/-- `PadLen(L) = 16 - (L mod 16)` (R103). -/
def padLen (len : Nat) : Nat := 16 - len % 16

/-- The padding byte for a string of length `len`: PadLen as one byte (R104). -/
def padByte (len : Nat) : Byte := BitVec.ofNat 8 (padLen len)

/-- `Pad(m) = m || rep(p, p)` (R104). -/
def pad (m : Bytes) : Bytes := m ++ List.replicate (padLen m.length) (padByte m.length)

/-- A padded string is a whole number of blocks (R105). -/
theorem pad_length_mod (m : Bytes) : (pad m).length % 16 = 0 := by
  simp only [pad, padLen, List.length_append, List.length_replicate]; omega

/-- `Unpad(x)` (R106), total on every byte string (the spec's own extension, 92_eei_decisions.md D24).  `p` is the last byte, a number
0 to 255. -/
def unpad (x : Bytes) : Except ErrorKind Bytes :=
  match x.getLast? with
  | none => .error .paddingValidation
  | some b =>
    let p := b.toNat
    if p < 1 ∨ 16 < p then .error .paddingValidation
    else if x.length < p then .error .paddingValidation
    else if (x.drop (x.length - p)).all (fun c => c == b) then .ok (x.take (x.length - p))
    else .error .paddingValidation

end Sys2Proof.Machine
end

