-- ==== Sys2Proof/Machine/CodecFunctions.lean ====
section
/-! DEFINITION. The codec functions (40_datapath_functions.md R115, R116), over any cipher. -/

namespace Sys2Proof.Machine

/-- `EncodeFn(k, iv, m) = Frame(iv, CbcEnc(k, iv, Pad(m)))` (R115). -/
def encodeFn (encrypt : Block → Block → Block) (k iv : Block) (m : Bytes) : Bytes :=
  frame iv (cbcEnc encrypt k iv (pad m) (pad_length_mod m))

/-- Steps 2 and 3 of `DecodeFn(k, e)`: the raw CbcDec output of an envelope of accepted length (R116). -/
def decryptEnvelope (decrypt : Block → Block → Block) (k : Block) (e : Bytes)
    (h : validEnvLen e.length = true) : Bytes :=
  cbcDec decrypt k (split e (validEnvLen_ge h)).1 (split e (validEnvLen_ge h)).2
    (by simpa [split] using validEnvLen_rest h)

/-- `DecodeFn(k, e)` (R116). -/
def decodeFn (decrypt : Block → Block → Block) (k : Block) (e : Bytes) : Except ErrorKind Bytes :=
  if h : validEnvLen e.length = true then unpad (decryptEnvelope decrypt k e h)
  else .error .invalidEnvelope

end Sys2Proof.Machine
end

