-- ==== Sys2Proof/Config.lean ====
section
/-! DEFINITION. The parameters of the unit that the spec leaves OPEN (00_scope.md R6 to R8, 10_state.md R33; 92_eei_decisions.md
"OPEN parameters, collected"), and the one choice of them the machine runs under, which nothing in Lean can evaluate. -/

namespace Sys2Proof

/-- The parameters of a step: the capacity of IBUF with its constraint (R6), the block cipher as two total functions of key and
block (R7), and the draws, draw `n` being the `n`-th 16-byte value the entropy source delivers (R8).  Nothing more is assumed
of any of them. -/
structure Platform where
  /-- IBUF_CAP, the size of the input buffer in bytes (R6). -/
  ibufCap : Nat
  /-- BlockEncrypt: key, block (R7). -/
  blockEncrypt : Block → Block → Block
  /-- BlockDecrypt: key, block (R7). -/
  blockDecrypt : Block → Block → Block
  /-- The `n`-th draw (R8): a free value under no law. -/
  draw : Nat → Block
  /-- 32 <= IBUF_CAP (R6). -/
  cap_ge : 32 ≤ ibufCap
  /-- IBUF_CAP + 32 < 2^32 (R6). -/
  cap_lt : ibufCap + 32 < 2 ^ 32

/-- OBUF_CAP = IBUF_CAP + 32 (R6). -/
def Platform.obufCap (P : Platform) : Nat := P.ibufCap + 32

/-- The named property CipherInverse (R7): the hypothesis of the round-trip laws and of no rule of operation. -/
def Platform.CipherInverse (P : Platform) : Prop :=
  ∀ k b : Block, P.blockDecrypt k (P.blockEncrypt k b) = b

/-- How far IBUF_CAP lies above 32, any value the constraint of R6 admits: left open, so a constant without a body. -/
opaque Config.ibufExtra : Fin 4294967232

/-- BlockEncrypt of the modelled unit: open (R7, D18), a constant without a body. -/
opaque Config.blockEncrypt : Block → Block → Block

/-- BlockDecrypt of the modelled unit: open (R7, D18), a constant without a body. -/
opaque Config.blockDecrypt : Block → Block → Block

/-- The draws of the modelled unit: free values (R8, D17), a constant without a body. -/
opaque Config.draw : Nat → Block

/-- The parameters the machine of `Host.Core` runs under. -/
def Config.unit : Platform where
  ibufCap := 32 + Config.ibufExtra.val
  blockEncrypt := Config.blockEncrypt
  blockDecrypt := Config.blockDecrypt
  draw := Config.draw
  cap_ge := Nat.le_add_right _ _
  cap_lt := by have := Config.ibufExtra.isLt; omega

end Sys2Proof
end

