-- ==== Sys2Proof/Machine/Flags.lean ====
section
/-! DEFINITION. The error codes and the register views of the flags (60_exceptions.md R161; 10_state.md R26, R27, R36). -/

namespace Sys2Proof.Machine

/-- The codes read in REG.ERRCODE[3:0] (R161).  Code 0 is "no error". -/
def ErrorKind.code : ErrorKind → BitVec 4
  | .fileAccess => 1
  | .invalidKey => 2
  | .invalidEnvelope => 3
  | .paddingValidation => 4
  | .illegalCommand => 5
  | .capacity => 6

/-- One bit widened to 32 with zeros (R12). -/
def bitWord (b : Bool) : Word := (BitVec.ofBool b).setWidth 32

/-- REG.STATUS: `OK | ERR << 1 | KEYVALID << 2`, bits 31:3 zero (R26, 20_memory.md R55). -/
def statusWord (s : State) : Word :=
  bitWord s.ok ||| bitWord s.err <<< 1 ||| bitWord s.keyValid <<< 2

/-- REG.ERRCODE: `zext_32(ERRCODE)` (R27, 20_memory.md R55). -/
def errcodeWord (s : State) : Word := s.errCode.setWidth 32

/-- REG.OLEN: `zext_32(|OUT|)` (R25, 20_memory.md R55). -/
def olenWord (s : State) : Word := BitVec.ofNat 32 s.out.length

end Sys2Proof.Machine
end

