-- ==== Sys2Proof/Machine/Ops.lean ====
section
/-! DEFINITION. The shared operations: the buffer memory (20_memory.md R52, R57, R60), the two completions of a command (30_encoding.md
R87; 60_exceptions.md R170), the draw (00_scope.md R8), reset (70_reset_and_hazards.md R191), and the map of the REG space. -/

namespace Sys2Proof.Machine

/-- The byte at an index: the listed one, else 0x00, the reset contents (10_state.md R40). -/
def Memory.read (m : Memory) (a : Nat) : Byte :=
  match m with
  | [] => 0
  | c :: rest => if c.1 = a then c.2 else Memory.read rest a

/-- The memory without an entry for an index. -/
def Memory.erase (m : Memory) (a : Nat) : Memory := m.filter fun c => c.1 ≠ a

/-- A cell put in at its place in the rising order. -/
def Memory.insert (c : Host.Cell) : Memory → Memory
  | [] => [c]
  | d :: rest => if c.1 < d.1 then c :: d :: rest else d :: Memory.insert c rest

/-- `m[a] <- b`.  Writing 0x00, what an unlisted index reads as, removes the entry. -/
def Memory.write (m : Memory) (a : Nat) (b : Byte) : Memory :=
  if b = 0 then Memory.erase m a else Memory.insert (a, b) (Memory.erase m a)

/-- The canonical form: indices strictly rising, no byte 0x00 listed. -/
def Memory.wf : Memory → Bool
  | [] => true
  | c :: rest => c.2 != 0 && rest.all (fun d => decide (c.1 < d.1)) && Memory.wf rest

/-- `MemRead(space, a, n)`: the bytes at `a`, `a+1`, ..., `a+n-1` (R60). -/
def memRead (m : Memory) (a n : Nat) : Bytes := (List.range n).map fun i => Memory.read m (a + i)

/-- `MemRead(space, a, 16)` as a block. -/
def memReadBlock (m : Memory) (a : Nat) : Block := Vector.ofFn fun j => Memory.read m (a + j.val)

/-- Success completion, `complete(out)` (30_encoding.md R87). -/
def complete (out : Bytes) (s : State) : State :=
  { s with out := out, ok := true, err := false, errCode := 0, work := Working.zero }

/-- Error completion, `raise <Error>` (60_exceptions.md R170): the one shared way a command ends in an error.  Nothing is saved and
control goes nowhere. -/
def raise (k : ErrorKind) (s : State) : State :=
  { s with out := [], ok := false, err := true, errCode := k.code, work := Working.zero }

/-- The KEY and KEYVALID pair set together, as LDKEY does (41_validator_commands.md R130). -/
def setKey (k : Block) (valid : Bool) (s : State) : State := { s with key := k, keyValid := valid }

/-- One draw taken: the count moves on (00_scope.md R8). -/
def takeDraw (s : State) : State := { s with draws := s.draws + 1 }

/-- Reset (70_reset_and_hazards.md R191): every piece of the unit's state at its value of 10_state.md R40.  What the host has still to
do and how many draws the entropy source has given are not the unit's and stay; reset consumes no draw. -/
def resetUnit (s : State) : State := { State.reset with pending := s.pending, draws := s.draws }

/-- The register at a byte offset of the REG space; no other offset exists (20_memory.md R51). -/
def regAt (off : Nat) : Option Reg :=
  if off = 0x00 then some .cmd
  else if off = 0x04 then some .status
  else if off = 0x08 then some .errcode
  else if off = 0x0C then some .ilen
  else if off = 0x10 then some .olen
  else none

/-- What a read of each register returns (20_memory.md R55): no read changes the state. -/
def regRead (r : Reg) (s : State) : Word :=
  match r with
  | .cmd => 0
  | .status => statusWord s
  | .errcode => errcodeWord s
  | .ilen => s.ilen
  | .olen => olenWord s

/-- `ILEN <- v`, all 32 bits (10_state.md R24). -/
def setIlen (v : Word) (s : State) : State := { s with ilen := v }

/-- `IBUF[a] <- b` and nothing else (20_memory.md R57). -/
def writeIbuf (a : Nat) (b : Byte) (s : State) : State := { s with ibuf := Memory.write s.ibuf a b }

/-- OBUF at an index: `OUT[a]` below `|OUT|`, else 0x00 (20_memory.md R53, R58). -/
def readObuf (a : Nat) (s : State) : Byte := s.out.getD a 0

/-- The port's answer to the host. -/
def respond (r : Answer) (s : State) : State := { s with answer := r }

/-- The width of a written value. -/
def Data.width : Data → Width
  | .byte _ => .w8
  | .half _ => .w16
  | .word _ => .w32
  | .other bits _ => .other bits

end Sys2Proof.Machine
end

