-- ==== Sys2Proof/Machine/Operands.lean ====
section
/-! DEFINITION. The implicit operands of the commands (30_encoding.md R81): there is no operand form in a command word. -/

namespace Sys2Proof.Machine

/-- ILEN as a number (10_state.md R24; 00_scope.md R10: unsigned). -/
def operandLength (s : State) : Nat := s.ilen.toNat

/-- The operand byte string `IBUF[0:ILEN]` (20_memory.md R52). -/
def operand (s : State) : Bytes := memRead s.ibuf 0 (operandLength s)

/-- The presented key `IBUF[0:16]` of an LDKEY whose length is 16 (41_validator_commands.md R130). -/
def presentedKey (s : State) : Block := memReadBlock s.ibuf 0

end Sys2Proof.Machine
end

