-- ==== Sys2Proof/Machine/CodecCommands.lean ====
section
/-! DEFINITION. The codec commands (42_codec_commands.md R140, R141), over any platform, and their meanings on the modelled one. -/

namespace Sys2Proof.Machine

/-- ENC (R140): two pre-checks, then exactly one draw, then the envelope of the operand. -/
def encCommand (P : Platform) (s : State) : State :=
  if s.keyValid = false then raise .invalidKey s
  else if P.ibufCap < operandLength s then raise .capacity s
  else complete (encodeFn P.blockEncrypt s.key (P.draw s.draws) (operand s)) (takeDraw s)

/-- DEC (R141): three pre-checks, then the envelope decoded; an error of the padding check leaves nothing of the plaintext. -/
def decCommand (P : Platform) (s : State) : State :=
  if s.keyValid = false then raise .invalidKey s
  else if validEnvLen (operandLength s) = false then raise .invalidEnvelope s
  else if P.ibufCap < operandLength s then raise .capacity s
  else
    match decodeFn P.blockDecrypt s.key (operand s) with
    | .error k => raise k s
    | .ok m => complete m s

/-- The meaning of ENC. -/
def execEnc (s : State) : Host.Outcome State Fault Refusal := .next (encCommand Config.unit s)

/-- The meaning of DEC. -/
def execDec (s : State) : Host.Outcome State Fault Refusal := .next (decCommand Config.unit s)

end Sys2Proof.Machine
end

