-- ==== Sys2Proof/Machine/ValidatorCommands.lean ====
section
/-! DEFINITION. The validator commands (41_validator_commands.md R130, R131). -/

namespace Sys2Proof.Machine

/-- LDKEY (R130). -/
def ldkeyCommand (s : State) : State :=
  if validKey (operandLength s) then complete [] (setKey (presentedKey s) true s)
  else raise .invalidKey (setKey Block.zero false s)

/-- VENV (R131). -/
def venvCommand (s : State) : State :=
  if validEnvLen (operandLength s) then complete [] s else raise .invalidEnvelope s

/-- The meaning of LDKEY: it always ends, in success or an error kind (30_encoding.md R83). -/
def execLdkey (s : State) : Host.Outcome State Fault Refusal := .next (ldkeyCommand s)

/-- The meaning of VENV. -/
def execVenv (s : State) : Host.Outcome State Fault Refusal := .next (venvCommand s)

end Sys2Proof.Machine
end

