-- ==== Sys2Proof/Machine/Port.lean ====
section
/-! DEFINITION. The host port: command issue (30_encoding.md R83), the admitted accesses and what each does (20_memory.md R54 to R58),
and the events a step takes from the host (00_scope.md R13; 70_reset_and_hazards.md R190). -/

namespace Sys2Proof.Machine

/-- The admitted accesses, as the table of R54 lists them. -/
def admitted (P : Platform) : Access → Bool
  | .read .reg w off => w == .w32 && (regAt off).isSome
  | .write .reg off v => v.width == .w32 && (regAt off).isSome
  | .read .ibuf w a => w == .w8 && decide (a < P.ibufCap)
  | .write .ibuf a v => v.width == .w8 && decide (a < P.ibufCap)
  | .read .obuf w a => w == .w8 && decide (a < P.obufCap)
  | .write .obuf a v => v.width == .w8 && decide (a < P.obufCap)

/-- An access that is not admitted: the port answers so and the unit's state stays; the next access is accepted as usual (R54,
00_scope.md R17). -/
def refuseAccess (s : State) : Host.Outcome State Fault Refusal := .next (respond .refused s)

/-- Command issue (30_encoding.md R83): decode, then the command or IllegalCommandError (60_exceptions.md R165).  The word is not
kept (10_state.md R28). -/
def issue (w : Word) (s : State) : Host.Outcome State Fault Refusal :=
  match decode w with
  | .ok i => exec i s
  | .error _ => .next (raise .illegalCommand s)

/-- A 32-bit write to a register (R56). -/
def writeReg (r : Reg) (v : Word) (s : State) : Host.Outcome State Fault Refusal :=
  match r with
  | .cmd => issue v (respond .done s)
  | .ilen => .next (respond .done (setIlen v s))
  | .status => .next (respond .done s)
  | .errcode => .next (respond .done s)
  | .olen => .next (respond .done s)

/-- One host access (R55 to R58); whatever R54 does not list is refused. -/
def access (P : Platform) (a : Access) (s : State) : Host.Outcome State Fault Refusal :=
  match a with
  | .read .reg .w32 off =>
    match regAt off with
    | some r => .next (respond (.word (regRead r s)) s)
    | none => refuseAccess s
  | .write .reg off (.word v) =>
    match regAt off with
    | some r => writeReg r v s
    | none => refuseAccess s
  | .read .ibuf .w8 i => if i < P.ibufCap then .next (respond (.byte (Memory.read s.ibuf i)) s) else refuseAccess s
  | .write .ibuf i (.byte b) => if i < P.ibufCap then .next (respond .done (writeIbuf i b s)) else refuseAccess s
  | .read .obuf .w8 i => if i < P.obufCap then .next (respond (.byte (readObuf i s)) s) else refuseAccess s
  | .write .obuf i (.byte _) => if i < P.obufCap then .next (respond .done s) else refuseAccess s
  | .read _ _ _ => refuseAccess s
  | .write _ _ _ => refuseAccess s

/-- One event from outside: an access, or a reset (70_reset_and_hazards.md R190). -/
def hostEvent (P : Platform) (e : HostEvent) (s : State) : Host.Outcome State Fault Refusal :=
  match e with
  | .access a => access P a s
  | .reset => .next (resetUnit s)

/-- The next event of the host taken from the front; with none the unit is quiescent and holds its state (00_scope.md R16,
60_exceptions.md R185). -/
def takeEvent (P : Platform) (s : State) : Host.Outcome State Fault Refusal :=
  match s.pending with
  | [] => .next s
  | e :: rest => hostEvent P e { s with pending := rest }

/-- The host access that writes a table word to REG.CMD; a row wider than 32 bits would be an access wider than a register. -/
def commandWrite (nbits w : Nat) : Access :=
  .write .reg 0x00
    (if nbits ≤ 32 then .word (BitVec.ofNat 32 (w % 2 ^ nbits)) else .other nbits (w % 2 ^ nbits))

end Sys2Proof.Machine
end

