-- ==== Sys2Proof/Machine/Step.lean ====
section
/-! DEFINITION. The step (00_scope.md R13, R15): one event of the host, which for a write to REG.CMD is one whole command. -/

namespace Sys2Proof.Machine

/-- One step of the modelled unit. -/
def step (s : State) : Host.Outcome State Fault Refusal := takeEvent Config.unit s

/-- The state in which the host's next event is the write of this command word to REG.CMD. -/
def State.withFetchWord (s : State) (nbits w : Nat) : State :=
  { s with pending := .access (commandWrite nbits w) :: s.pending }

end Sys2Proof.Machine
end

