-- ==== Sys2Proof/Machine/Datapath.lean ====
section
/-! DEFINITION. The block-level datapath of ENC and DEC (40_datapath_functions.md R120), over the working registers of 10_state.md R29:
a refinement of the commands of CodecCommands.lean that must give exactly their results and of which the host sees nothing. -/

namespace Sys2Proof.Machine

/-- The datapath in mid-command: its working registers and the bytes contributed to the result so far (20_memory.md R60). -/
structure Lane where
  work : Working
  result : Bytes
deriving DecidableEq, Repr

/-- `MemWrite(OBUF, a, n, v)`: bytes `a` to `a+n-1` of the command's result (R60). -/
def contribute (result : Bytes) (a : Nat) (v : Bytes) : Bytes :=
  (result ++ List.replicate (a - result.length) 0).take a ++ v ++ result.drop (a + v.length)

/-- The padding unit's block `i` (1 the first): `WORK[j] <- (a < ILEN) ? IBUF[a] : PADLEN` with `a = 16*(i-1) + j`. -/
def paddedBlock (s : State) (padLength : BitVec 5) (i : Nat) : Block :=
  Vector.ofFn fun j =>
    if 16 * (i - 1) + j.val < operandLength s then Memory.read s.ibuf (16 * (i - 1) + j.val)
    else padLength.setWidth 8

/-- One turn of the ENC loop. -/
def encTurn (P : Platform) (s : State) (l : Lane) (i : Nat) : Lane :=
  let plain := paddedBlock s l.work.padLen i
  let cipher := P.blockEncrypt s.key (xor16 plain l.work.chain)
  { work := { l.work with blkIdx := i, work := cipher, chain := cipher }
    result := contribute l.result (16 * i) cipher.bytes }

/-- The ENC datapath after its pre-checks, up to completion. -/
def encLane (P : Platform) (s : State) : Lane :=
  let iv := P.draw s.draws
  let nblk := operandLength s / 16 + 1
  (List.range' 1 nblk).foldl (encTurn P s)
    { work := { Working.zero with
        ivr := iv, chain := iv, padLen := BitVec.ofNat 5 (16 - operandLength s % 16), nblk := nblk }
      result := contribute [] 0 iv.bytes }

/-- ENC by the datapath, for a state that passes the pre-checks. -/
def encDatapath (P : Platform) (s : State) : State :=
  let l := encLane P s
  complete (l.result.take (16 + 16 * l.work.nblk)) (takeDraw { s with work := l.work })

/-- One turn of the DEC loop.  CHAIN is loaded with `C_i` as received. -/
def decTurn (P : Platform) (s : State) (l : Lane) (i : Nat) : Lane :=
  let cipher := memReadBlock s.ibuf (16 * i)
  let plain := xor16 (P.blockDecrypt s.key cipher) l.work.chain
  { work := { l.work with blkIdx := i, work := cipher, t := plain, chain := cipher }
    result := contribute l.result (16 * (i - 1)) plain.bytes }

/-- The DEC datapath after its pre-checks, up to the padding check; PB is then the last byte written. -/
def decLane (P : Platform) (s : State) : Lane :=
  let iv := memReadBlock s.ibuf 0
  let nblk := operandLength s / 16 - 1
  let l := (List.range' 1 nblk).foldl (decTurn P s)
    { work := { Working.zero with ivr := iv, chain := iv, nblk := nblk }, result := [] }
  { l with work := { l.work with pb := l.result.getD (16 * nblk - 1) 0 } }

/-- DEC by the datapath, for a state that passes the pre-checks. -/
def decDatapath (P : Platform) (s : State) : State :=
  let l := decLane P s
  let p := l.work.pb.toNat
  if p < 1 ∨ 16 < p ∨ (l.result.drop (16 * l.work.nblk - p)).any (fun c => c != l.work.pb) then
    raise .paddingValidation { s with work := l.work }
  else
    let work := { l.work with padLen := BitVec.ofNat 5 p }
    complete (l.result.take (16 * work.nblk - work.padLen.toNat)) { s with work := work }

end Sys2Proof.Machine
end

