-- ==== Sys2Proof/Machine/HostScript.lean ====
section
/-! DEFINITION. The host scripts of 30_encoding.md R88 and R89 as lists of events, and a run of such a list. -/

namespace Sys2Proof.Machine

/-- `WR CMD, <word>` (R88). -/
def wrCmdWord (w : Word) : HostEvent := .access (.write .reg 0x00 (.word w))

/-- `WR CMD, LDKEY` / `VENV` / `ENC` / `DEC` (R88). -/
def wrCmd (i : Instr) : HostEvent := wrCmdWord (encode i)

/-- `WR ILEN, n` (R88). -/
def wrIlen (n : Word) : HostEvent := .access (.write .reg 0x0C (.word n))

/-- `WB IBUF[a], b` (R88). -/
def wbIbuf (a : Nat) (b : Byte) : HostEvent := .access (.write .ibuf a (.byte b))

/-- The offset of a register (20_memory.md R51). -/
def Reg.offset : Reg → Nat
  | .cmd => 0x00
  | .status => 0x04
  | .errcode => 0x08
  | .ilen => 0x0C
  | .olen => 0x10

/-- `RD STATUS` and the like (R88). -/
def rdReg (r : Reg) : HostEvent := .access (.read .reg .w32 r.offset)

/-- `RB OBUF[a]` (R88). -/
def rbObuf (a : Nat) : HostEvent := .access (.read .obuf .w8 a)

/-- The writes `WB IBUF[a], b` of a byte string from index `a` on. -/
def wbFrom (a : Nat) : Bytes → List HostEvent
  | [] => []
  | b :: rest => wbIbuf a b :: wbFrom (a + 1) rest

/-- `LOAD <bytes>` (R89). -/
def loadEvents (x : Bytes) : List HostEvent := wbFrom 0 x ++ [wrIlen (BitVec.ofNat 32 x.length)]

/-- The pairs `RB OBUF[a]`, `WB IBUF[a], b` of a COPYBACK from index `a` on. -/
def copyFrom (a : Nat) : Bytes → List HostEvent
  | [] => []
  | b :: rest => rbObuf a :: wbIbuf a b :: copyFrom (a + 1) rest

/-- `COPYBACK` (R89) issued in the state `s`: the bytes written are the ones the reads return. -/
def copybackEvents (s : State) : List HostEvent :=
  rdReg .olen :: copyFrom 0 s.out ++ [wrIlen (olenWord s)]

/-- The events of a host performed one after another (20_memory.md R65). -/
def runEvents (P : Platform) : List HostEvent → State → Host.Outcome State Fault Refusal
  | [], s => .next s
  | e :: rest, s =>
    match hostEvent P e s with
    | .next t => runEvents P rest t
    | .fault r => .fault r
    | .refused r => .refused r

end Sys2Proof.Machine
end

