-- ==== Sys2Proof/Safety.lean ====
section
/-! DEFINITION. The terms claims are stated in: the invariants of the state (10_state.md R37), the states a run can reach with any host
(00_scope.md R13, R14, R16), and blocks read out of byte strings and of memory (20_memory.md R59). -/

namespace Sys2Proof.Machine

/-- The invariants of 10_state.md R37 (a) to (g), for a unit of these parameters. -/
structure StateRules (P : Platform) (s : State) : Prop where
  /-- (a) not (OK = 1 and ERR = 1). -/
  notBoth : ¬ (s.ok = true ∧ s.err = true)
  /-- (b) ERRCODE != 0 exactly when ERR = 1. -/
  codeWithErr : s.errCode ≠ 0 ↔ s.err = true
  /-- (c) if ERR = 1 then OUT is empty. -/
  errEmpty : s.err = true → s.out = []
  /-- (d) if KEYVALID = 0 then KEY is 16 zero bytes. -/
  noKeyZero : s.keyValid = false → s.key = Block.zero
  /-- (e) |OUT| <= OBUF_CAP. -/
  outFits : s.out.length ≤ P.obufCap
  /-- (f) ERRCODE is one of 0, 2, 3, 4, 5, 6. -/
  codeProduced : s.errCode = 0 ∨ s.errCode = 2 ∨ s.errCode = 3 ∨ s.errCode = 4 ∨ s.errCode = 5 ∨ s.errCode = 6
  /-- (g) |OUT| is 0, or a multiple of 16 that is at least 32, or any value up to IBUF_CAP - 17. -/
  outShape : s.out.length = 0 ∨ (s.out.length % 16 = 0 ∧ 32 ≤ s.out.length) ∨ s.out.length + 17 ≤ P.ibufCap

/-- The model's invariant: R37, IBUF in canonical form inside its capacity, and no working register holding anything between steps
(10_state.md R29). -/
structure Inv (P : Platform) (s : State) : Prop extends StateRules P s where
  /-- IBUF is in canonical form. -/
  ibufWf : Memory.wf s.ibuf = true
  /-- IBUF lists no index at or beyond IBUF_CAP (R23). -/
  ibufFits : ∀ c ∈ s.ibuf, c.1 < P.ibufCap
  /-- Every working register is 0 (R29). -/
  workZero : s.work = Working.zero

/-- The states a run can reach: from the unit's reset state, after any number of draws taken elsewhere, by steps, the host deciding
anew at any point what it does next (00_scope.md R14: any accesses, in any order and any number). -/
inductive Reachable : State → Prop where
  | start (n : Nat) : Reachable { State.reset with draws := n }
  | host (es : List HostEvent) {s : State} : Reachable s → Reachable { s with pending := es }
  | step {s t : State} : Reachable s → step s = .next t → Reachable t

/-- Bytes `16*i` to `16*i + 15` of a byte string: `C_i` of an envelope, the IV for `i = 0` (R59). -/
def blockAt (x : Bytes) (i : Nat) : Block := Vector.ofFn fun j => x.getD (16 * i + j.val) 0

/-- Block `i` (0 the first) of the padded operand, byte by byte: the operand's bytes, then PadLen (40_datapath_functions.md R103,
R104). -/
def operandBlock (s : State) (i : Nat) : Block :=
  Vector.ofFn fun j =>
    if 16 * i + j.val < s.ilen.toNat then Memory.read s.ibuf (16 * i + j.val)
    else BitVec.ofNat 8 (16 - s.ilen.toNat % 16)

/-- `P_{i+1}` of the envelope in IBUF, by the recurrence of R109: `BlockDecrypt(KEY, C_{i+1}) XOR C_i`. -/
def decryptedBlock (P : Platform) (s : State) (i : Nat) : Block :=
  xor16 (P.blockDecrypt s.key (memReadBlock s.ibuf (16 * (i + 1)))) (memReadBlock s.ibuf (16 * i))

/-- The padding value a last block names: its last byte (40_datapath_functions.md R106). -/
def paddingValue (last : Block) : Nat := last[15].toNat

/-- A last block ends in valid padding: `1 <= p <= 16` for its last byte `p`, and its last `p` bytes all equal `p` (R106). -/
def endsInPadding (last : Block) : Bool :=
  decide (1 ≤ paddingValue last ∧ paddingValue last ≤ 16 ∧
    ∀ j : Fin 16, 16 - paddingValue last ≤ j.val → last[j].toNat = paddingValue last)

/-- The last block DEC decrypts, `P_n` with `n = ILEN/16 - 1`. -/
def lastDecryptedBlock (P : Platform) (s : State) : Block := decryptedBlock P s (s.ilen.toNat / 16 - 2)

/-- The next event of the host is a write of `w` to REG.CMD. -/
def NextIsCommand (s : State) (w : Word) : Prop := ∃ rest, s.pending = wrCmdWord w :: rest

/-- The next event of the host is a reset. -/
def NextIsReset (s : State) : Prop := ∃ rest, s.pending = .reset :: rest

end Sys2Proof.Machine
end

