-- ==== Sys2Proof/Certificates/Slice0/Obligations.lean ====
section
/-! DEFINITION. The statements for the provers, in the order of OBLIGATIONS.json.  Each docstring names the rule it formalises or the
section it rests on.  `pending`, `answer` and `draws` are the model's own fields (log entries 1, 2 and 4): they say how the host's events, the
port's answer and the draws stand in State; no rule of the spec names them. -/

open Sys2Proof Sys2Proof.Machine

/-! ### Encoding (30_encoding.md) -/

/-- Sanity: the four command words of the table, and words the spec names as illegal, decode as the spec says. -/
def Obligations.CommandWordsDecode : Prop :=
  decode 0x00000001 = .ok .ldkey ∧ decode 0x00000002 = .ok .venv ∧ decode 0x00000003 = .ok .enc ∧
  decode 0x00000004 = .ok .dec ∧ decode 0x00000000 = .error (.operationUnassigned 0x00) ∧
  decode 0x00000005 = .error (.operationUnassigned 0x05) ∧ decode 0x000000FF = .error (.operationUnassigned 0xFF) ∧
  decode 0x00000103 = .error (.reservedNonzero 0x000001) ∧ decode 0x80000001 = .error (.reservedNonzero 0x800000)

/-- R84: on every 32-bit word Decode answers one of the four commands or illegal, exactly as its fields w[31:8] and w[7:0] say, and
exactly four words are commands. -/
def Obligations.ExactlyFourWordsAreCommands : Prop :=
  ∀ w : Word,
    (∀ i : Instr, decode w = .ok i ↔
      (w.toNat = 1 ∧ i = .ldkey) ∨ (w.toNat = 2 ∧ i = .venv) ∨ (w.toNat = 3 ∧ i = .enc) ∨ (w.toNat = 4 ∧ i = .dec)) ∧
    ((∃ e, decode w = .error e) ↔ w.toNat / 256 ≠ 0 ∨ w.toNat % 256 = 0 ∨ 4 < w.toNat % 256)

/-- Decode and encode agree: a word decodes to a command exactly when it is that command's word, whose fields are well formed; the same
through the opcode table's numbering. -/
def Obligations.DecodeEncodeAgree : Prop :=
  ∀ i : Instr, (∀ w : Word, decode w = .ok i ↔ w = encode i) ∧ (fieldsOf i).wellFormed = true ∧
    (∀ w : Nat, decodeTableWord 32 w = some i ↔ w % 2 ^ 32 = (encode i).toNat)

/-! ### Issue and the step (30_encoding.md section 4; 00_scope.md section 6) -/

/-- A step runs the decoded command: with the write of a command word next at the port, the step is `exec` of that command on the state
in which the host's event is taken and its write answered. -/
def Obligations.StepRunsIssuedCommand : Prop :=
  ∀ (s : State) (rest : List HostEvent) (w : Word) (i : Instr),
    s.pending = wrCmdWord w :: rest → decode w = .ok i →
    step s = exec i { s with pending := rest, answer := .done }

/-- The opcode table's words reach the step: the state with a command's word placed at the port runs that command next (how a program comes
to run is the model's choice, log entries 1 and 14). -/
def Obligations.PlacedWordRunsNext : Prop :=
  ∀ (s : State) (n w : Nat) (i : Instr), decodeTableWord n w = some i →
    step (s.withFetchWord n w) = exec i { s with answer := .done }

/-- R165, R85: a word that is no command ends with IllegalCommandError and changes nothing but OK, ERR, ERRCODE and OUT (and the working
registers, which every completion leaves 0); the host's event is taken and answered. -/
def Obligations.IllegalWordEndsInIllegalCommandError : Prop :=
  ∀ (s : State) (rest : List HostEvent) (w : Word),
    s.pending = wrCmdWord w :: rest → w.toNat ≠ 1 → w.toNat ≠ 2 → w.toNat ≠ 3 → w.toNat ≠ 4 →
    step s = .next { s with
      pending := rest, answer := .done, out := [], ok := false, err := true, errCode := 5, work := Working.zero }

/-- No step stops the unit: every state steps to a next state, whatever the host does. -/
def Obligations.EveryStepAnswersNext : Prop := ∀ s : State, ∃ t : State, step s = .next t

/-- With nothing pending the unit is quiescent: a step leaves the whole state as it is (the model's reading of an idle unit, log
entry 5). -/
def Obligations.IdleUnitHoldsItsState : Prop := ∀ s : State, s.pending = [] → step s = .next s

/-! ### The commands (41_validator_commands.md, 42_codec_commands.md) -/

/-- R130: LDKEY on every state.  With ILEN = 16 it latches IBUF[0:16] as KEY and sets KEYVALID; with any other ILEN it clears both and
ends with InvalidKeyError.  Nothing else changes. -/
def Obligations.LdkeyLatchesOrClearsTheKey : Prop :=
  ∀ s : State, exec .ldkey s = .next
    (if s.ilen.toNat = 16 then
      { s with
        key := Vector.ofFn fun j => Memory.read s.ibuf j.val, keyValid := true
        out := [], ok := true, err := false, errCode := 0, work := Working.zero }
     else
      { s with
        key := Vector.replicate 16 0, keyValid := false
        out := [], ok := false, err := true, errCode := 2, work := Working.zero })

/-- R131: VENV on every state.  It judges ILEN alone: success exactly when ILEN >= 32 and ILEN mod 16 = 0, else InvalidEnvelopeError.
Nothing else changes. -/
def Obligations.VenvJudgesTheLengthAlone : Prop :=
  ∀ s : State, exec .venv s = .next
    (if 32 ≤ s.ilen.toNat ∧ s.ilen.toNat % 16 = 0 then
      { s with out := [], ok := true, err := false, errCode := 0, work := Working.zero }
     else
      { s with out := [], ok := false, err := true, errCode := 3, work := Working.zero })

/-- R140: ENC on every state: InvalidKeyError with no key, then CapacityError, else one draw and the envelope of IBUF[0:ILEN] under it,
of the length R140 gives.  Nothing else changes; a failing ENC takes no draw. -/
def Obligations.EncEncodesTheOperand : Prop :=
  ∀ s : State, ∃ out : Bytes,
    out = encodeFn Config.unit.blockEncrypt s.key (Config.unit.draw s.draws)
      ((List.range s.ilen.toNat).map (Memory.read s.ibuf)) ∧
    out.length = 16 + 16 * (s.ilen.toNat / 16 + 1) ∧
    exec .enc s = .next
      (if s.keyValid = false then
        { s with out := [], ok := false, err := true, errCode := 2, work := Working.zero }
       else if Config.unit.ibufCap < s.ilen.toNat then
        { s with out := [], ok := false, err := true, errCode := 6, work := Working.zero }
       else
        { s with
          out := out, ok := true, err := false, errCode := 0, work := Working.zero, draws := s.draws + 1 })

/-- What ENC leaves in OUT, byte for byte: for every key, operand and draw the envelope is the draw followed by blocks that satisfy
`C_i = BlockEncrypt(KEY, P_i XOR C_{i-1})` with `C_0` the draw and `P_i` the blocks of the padded operand; the registers of the host
interface say so. -/
def Obligations.EncOutputSatisfiesTheCbcRecurrence : Prop :=
  ∀ s : State, s.keyValid = true → s.ilen.toNat ≤ Config.unit.ibufCap →
    ∃ t : State, exec .enc s = .next t ∧
      t.out.length = 16 * (s.ilen.toNat / 16 + 1) + 16 ∧ t.out.length ≤ Config.unit.obufCap ∧
      blockAt t.out 0 = Config.unit.draw s.draws ∧
      (∀ i, i < s.ilen.toNat / 16 + 1 →
        blockAt t.out (i + 1) = Config.unit.blockEncrypt s.key (xor16 (operandBlock s i) (blockAt t.out i))) ∧
      (olenWord t).toNat = t.out.length ∧ t.ok = true ∧ t.err = false

/-- R141: DEC on every state: InvalidKeyError with no key, then InvalidEnvelopeError, then CapacityError, then PaddingValidationError, else
the decoded plaintext.  Nothing else changes. -/
def Obligations.DecDecodesTheOperand : Prop :=
  ∀ s : State, exec .dec s = .next
    (if s.keyValid = false then
      { s with out := [], ok := false, err := true, errCode := 2, work := Working.zero }
     else if s.ilen.toNat < 32 ∨ s.ilen.toNat % 16 ≠ 0 then
      { s with out := [], ok := false, err := true, errCode := 3, work := Working.zero }
     else if Config.unit.ibufCap < s.ilen.toNat then
      { s with out := [], ok := false, err := true, errCode := 6, work := Working.zero }
     else
      match decodeFn Config.unit.blockDecrypt s.key ((List.range s.ilen.toNat).map (Memory.read s.ibuf)) with
      | .ok m => { s with out := m, ok := true, err := false, errCode := 0, work := Working.zero }
      | .error _ => { s with out := [], ok := false, err := true, errCode := 4, work := Working.zero })

/-- What DEC leaves in OUT, byte for byte: past the pre-checks the blocks `P_i = BlockDecrypt(KEY, C_i) XOR C_{i-1}` of the envelope in IBUF
decide.  If the last of them ends in valid padding, `p` being its last byte, OUT is their first ILEN - 16 - p bytes; else PaddingValidationError and an
empty OUT. -/
def Obligations.DecOutputSatisfiesTheCbcRecurrence : Prop :=
  ∀ s : State, s.keyValid = true → 32 ≤ s.ilen.toNat → s.ilen.toNat % 16 = 0 → s.ilen.toNat ≤ Config.unit.ibufCap →
    ∃ t : State, exec .dec s = .next t ∧
      (endsInPadding (lastDecryptedBlock Config.unit s) = true →
        t.ok = true ∧ t.err = false ∧ t.errCode = 0 ∧
        t.out.length + 16 + paddingValue (lastDecryptedBlock Config.unit s) = s.ilen.toNat ∧
        ∀ (i : Nat) (j : Fin 16), 16 * i + j.val < t.out.length →
          t.out.getD (16 * i + j.val) 0 = (decryptedBlock Config.unit s i)[j]) ∧
      (endsInPadding (lastDecryptedBlock Config.unit s) = false →
        t.ok = false ∧ t.err = true ∧ t.errCode = 4 ∧ t.out = [])

/-- Every command completes, with exactly one outcome: OK or ERR, the code of an error kind that command can raise (R169: LDKEY 2; VENV 3;
ENC 2, 6; DEC 2, 3, 6, 4), no data together with an error, and the working registers 0 (R170, R87, R29). -/
def Obligations.EveryCommandEndsInOneOutcome : Prop :=
  ∀ (i : Instr) (s : State), ∃ t : State, exec i s = .next t ∧
    ((t.ok = true ∧ t.err = false ∧ t.errCode = 0) ∨
     (t.ok = false ∧ t.err = true ∧ t.out = [] ∧
      ((t.errCode = 2 ∧ i ≠ .venv) ∨ (t.errCode = 3 ∧ (i = .venv ∨ i = .dec)) ∨
       (t.errCode = 6 ∧ (i = .enc ∨ i = .dec)) ∨ (t.errCode = 4 ∧ i = .dec)))) ∧
    t.work = Working.zero

/-- The frame of the commands: no command writes IBUF (every byte of it reads as before), ILEN, or what stands outside the unit; only LDKEY
writes KEY and KEYVALID; only ENC takes a draw. -/
def Obligations.CommandsLeaveTheRestUnchanged : Prop :=
  ∀ (i : Instr) (s t : State), exec i s = .next t →
    t.ibuf = s.ibuf ∧ (∀ a, Memory.read t.ibuf a = Memory.read s.ibuf a) ∧ t.ilen = s.ilen ∧
    t.pending = s.pending ∧ t.answer = s.answer ∧
    (i ≠ .ldkey → t.key = s.key ∧ t.keyValid = s.keyValid) ∧ (i ≠ .enc → t.draws = s.draws)

/-- R142: the outcome of a command is a function of the command, ILEN, the operand's bytes inside the buffer, KEY, KEYVALID and, for ENC, the
draw; it does not depend on OUT, OK, ERR, ERRCODE or IBUF beyond the operand, and DEC issued again gives the same again. -/
def Obligations.CommandOutcomeDependsOnOperandAndKeyOnly : Prop :=
  (∀ (i : Instr) (s s' : State), s'.ilen = s.ilen →
    (∀ a, a < s.ilen.toNat → a < Config.unit.ibufCap → Memory.read s'.ibuf a = Memory.read s.ibuf a) →
    s'.key = s.key → s'.keyValid = s.keyValid →
    (i = .enc → Config.unit.draw s'.draws = Config.unit.draw s.draws) →
    ∃ t t' : State, exec i s = .next t ∧ exec i s' = .next t' ∧ t'.out = t.out ∧ t'.ok = t.ok ∧ t'.err = t.err ∧
      t'.errCode = t.errCode ∧ t'.key = t.key ∧ t'.keyValid = t.keyValid) ∧
  (∀ s t : State, exec .dec s = .next t → exec .dec t = .next t)

/-- R169: when several error conditions hold, the first in the spec's order is reported, for every word written to REG.CMD. -/
def Obligations.FirstErrorInPriorityOrderIsReported : Prop :=
  ∀ (w : Word) (s : State), ∃ t : State, issue w s = .next t ∧
    t.errCode =
      (if w ≠ 1 ∧ w ≠ 2 ∧ w ≠ 3 ∧ w ≠ 4 then 5
       else if (w = 1 ∧ s.ilen.toNat ≠ 16) ∨ ((w = 3 ∨ w = 4) ∧ s.keyValid = false) then 2
       else if (w = 2 ∨ w = 4) ∧ (s.ilen.toNat < 32 ∨ s.ilen.toNat % 16 ≠ 0) then 3
       else if (w = 3 ∨ w = 4) ∧ Config.unit.ibufCap < s.ilen.toNat then 6
       else if w = 4 ∧ endsInPadding (lastDecryptedBlock Config.unit s) = false then 4
       else 0)

/-- Draws: a step takes a draw exactly when it runs an ENC that passes both pre-checks, and then exactly one, which is OUT[0:16]. -/
def Obligations.OnlyASuccessfulEncTakesOneDraw : Prop :=
  ∀ s t : State, step s = .next t →
    ((NextIsCommand s 0x00000003 ∧ s.keyValid = true ∧ s.ilen.toNat ≤ Config.unit.ibufCap) →
      t.draws = s.draws + 1 ∧ t.out.take 16 = (Config.unit.draw s.draws).bytes) ∧
    (¬ (NextIsCommand s 0x00000003 ∧ s.keyValid = true ∧ s.ilen.toNat ≤ Config.unit.ibufCap) → t.draws = s.draws)

/-! ### Completions, registers and reset (30_encoding.md R87; 60_exceptions.md R170; 10_state.md; 70_reset_and_hazards.md) -/

/-- R170: error completion, the shared way into an error: what it sets, that it changes nothing else, and what STATUS, OLEN and OBUF then
read. -/
def Obligations.ErrorCompletionSetsTheOutcomeOnly : Prop :=
  ∀ (k : ErrorKind) (s : State),
    raise k s = { s with out := [], ok := false, err := true, errCode := k.code, work := Working.zero } ∧
    (statusWord (raise k s)).toNat = 2 + 4 * s.keyValid.toNat ∧ olenWord (raise k s) = 0 ∧
    ∀ a, readObuf a (raise k s) = 0

/-- R87: success completion with a result that fits OBUF: what it sets, that it changes nothing else, and what STATUS, ERRCODE and OLEN then
read. -/
def Obligations.SuccessCompletionSetsTheOutcomeOnly : Prop :=
  ∀ (out : Bytes) (s : State), out.length ≤ Config.unit.obufCap →
    complete out s = { s with out := out, ok := true, err := false, errCode := 0, work := Working.zero } ∧
    (statusWord (complete out s)).toNat = 1 + 4 * s.keyValid.toNat ∧ errcodeWord (complete out s) = 0 ∧
    (olenWord (complete out s)).toNat = out.length

/-- R40: the reset state: KEY, KEYVALID, IBUF, ILEN, OUT, OK, ERR, ERRCODE and the working registers, and what the registers and the
buffers then read. -/
def Obligations.ResetStateIsAllZero : Prop :=
  State.reset.key = Vector.replicate 16 0 ∧ State.reset.keyValid = false ∧
  (∀ a, Memory.read State.reset.ibuf a = 0) ∧ State.reset.ilen = 0 ∧ State.reset.out = [] ∧
  State.reset.ok = false ∧ State.reset.err = false ∧ State.reset.errCode = 0 ∧ State.reset.work = Working.zero ∧
  (∀ r : Reg, regRead r State.reset = 0) ∧ (∀ a, readObuf a State.reset = 0)

/-- R191: a reset puts every piece of the unit's state at its reset value whatever it was and takes no draw; and no other step clears KEYVALID
but an LDKEY with ILEN != 16, and none returns OK and ERR to 0 together. -/
def Obligations.ResetClearsTheUnit : Prop :=
  (∀ s : State, NextIsReset s → ∃ t : State, step s = .next t ∧
    t.key = State.reset.key ∧ t.keyValid = State.reset.keyValid ∧ t.ibuf = State.reset.ibuf ∧ t.ilen = State.reset.ilen ∧
    t.out = State.reset.out ∧ t.ok = State.reset.ok ∧ t.err = State.reset.err ∧ t.errCode = State.reset.errCode ∧
    t.work = State.reset.work ∧ t.draws = s.draws) ∧
  (∀ s t : State, step s = .next t → s.keyValid = true → t.keyValid = false →
    NextIsReset s ∨ (NextIsCommand s 0x00000001 ∧ s.ilen.toNat ≠ 16)) ∧
  (∀ s t : State, step s = .next t → (s.ok = true ∨ s.err = true) → t.ok = false → t.err = false → NextIsReset s)

/-- What reset leaves in the model's own fields (log entries 1, 2 and 4): the host's later events stand, no answer stands, and the count of
draws goes on. -/
def Obligations.ResetKeepsWhatIsOutsideTheUnit : Prop :=
  ∀ (s : State) (rest : List HostEvent), s.pending = .reset :: rest →
    step s = .next { State.reset with pending := rest, draws := s.draws }

/-- KEY and KEYVALID are changed by nothing but LDKEY and reset. -/
def Obligations.KeyChangesOnlyByLdkeyOrReset : Prop :=
  ∀ s t : State, step s = .next t → (t.key ≠ s.key ∨ t.keyValid ≠ s.keyValid) →
    NextIsReset s ∨ NextIsCommand s 0x00000001

/-- IBUF and ILEN are changed by nothing but the host's writes to them and reset, and a write changes the one byte it names. -/
def Obligations.OperandChangesOnlyByHostWritesOrReset : Prop :=
  ∀ s t : State, step s = .next t → ¬ NextIsReset s →
    (∀ a, Memory.read t.ibuf a ≠ Memory.read s.ibuf a →
      a < Config.unit.ibufCap ∧ ∃ rest, s.pending = wbIbuf a (Memory.read t.ibuf a) :: rest) ∧
    (t.ilen ≠ s.ilen → ∃ rest, s.pending = wrIlen t.ilen :: rest)

/-- OUT, OK, ERR and ERRCODE are changed by nothing but a write to REG.CMD and reset; after any write to REG.CMD exactly one of OK and ERR
is 1. -/
def Obligations.OutcomeChangesOnlyByCommandOrReset : Prop :=
  ∀ s t : State, step s = .next t →
    ((t.out ≠ s.out ∨ t.ok ≠ s.ok ∨ t.err ≠ s.err ∨ t.errCode ≠ s.errCode) →
      NextIsReset s ∨ ∃ w, NextIsCommand s w) ∧
    ((∃ w, NextIsCommand s w) → t.ok = !t.err)

/-- STATUS reads one of 0x0, 0x1, 0x2, 0x4, 0x5, 0x6 in every state a run can reach. -/
def Obligations.StatusReadsOneOfSixValues : Prop :=
  ∀ s : State, Reachable s →
    (regRead .status s).toNat = 0 ∨ (regRead .status s).toNat = 1 ∨ (regRead .status s).toNat = 2 ∨
    (regRead .status s).toNat = 4 ∨ (regRead .status s).toNat = 5 ∨ (regRead .status s).toNat = 6

/-! ### Host accesses (20_memory.md) -/

/-- R55: a read of each of the five registers returns what the rule says and changes nothing of the unit. -/
def Obligations.RegisterReadsReturnAndChangeNothing : Prop :=
  ∀ (s : State) (rest : List HostEvent) (off : Nat), s.pending = .access (.read .reg .w32 off) :: rest →
    off = 0x00 ∨ off = 0x04 ∨ off = 0x08 ∨ off = 0x0C ∨ off = 0x10 →
    ∃ v : Word, step s = .next { s with pending := rest, answer := .word v } ∧
      (off = 0x00 → v = 0) ∧
      (off = 0x04 → v.toNat = s.ok.toNat + 2 * s.err.toNat + 4 * s.keyValid.toNat) ∧
      (off = 0x08 → v.toNat = s.errCode.toNat) ∧ (off = 0x0C → v = s.ilen) ∧
      (off = 0x10 → v = BitVec.ofNat 32 s.out.length)

/-- R56: a 32-bit write issues a command at 0x00, sets ILEN at 0x0C, and is performed and ignored at the read-only registers. -/
def Obligations.RegisterWritesIssueStoreOrAreIgnored : Prop :=
  ∀ (s : State) (rest : List HostEvent) (off : Nat) (v : Word),
    s.pending = .access (.write .reg off (.word v)) :: rest →
    (off = 0x00 → step s = issue v { s with pending := rest, answer := .done }) ∧
    (off = 0x0C → step s = .next { s with pending := rest, answer := .done, ilen := v }) ∧
    (off = 0x04 ∨ off = 0x08 ∨ off = 0x10 → step s = .next { s with pending := rest, answer := .done })

/-- R57: a byte read of IBUF returns the byte and changes nothing; a byte write sets that byte, leaves every other byte as it was, and changes
nothing else. -/
def Obligations.IbufAccessesReadAndWriteOneByte : Prop :=
  ∀ (s : State) (rest : List HostEvent) (a : Nat), a < Config.unit.ibufCap →
    (s.pending = .access (.read .ibuf .w8 a) :: rest →
      step s = .next { s with pending := rest, answer := .byte (Memory.read s.ibuf a) }) ∧
    (∀ b : Byte, s.pending = .access (.write .ibuf a (.byte b)) :: rest →
      ∃ m : Memory, step s = .next { s with pending := rest, answer := .done, ibuf := m } ∧
        Memory.read m a = b ∧ ∀ a', a' ≠ a → Memory.read m a' = Memory.read s.ibuf a')

/-- R58: a byte read of OBUF returns OUT[a] below |OUT| and 0x00 above; a byte write of OBUF is performed and changes nothing. -/
def Obligations.ObufReadsTheResultAndIgnoresWrites : Prop :=
  ∀ (s : State) (rest : List HostEvent) (a : Nat), a < Config.unit.obufCap →
    (s.pending = .access (.read .obuf .w8 a) :: rest →
      ∃ b : Byte, step s = .next { s with pending := rest, answer := .byte b } ∧
        (∀ h : a < s.out.length, b = s.out[a]) ∧ (s.out.length ≤ a → b = 0)) ∧
    (∀ b : Byte, s.pending = .access (.write .obuf a (.byte b)) :: rest →
      step s = .next { s with pending := rest, answer := .done })

/-- R54: the accesses of the table are performed, and every other access is refused: the unit's state stays and the next event is taken
as usual. -/
def Obligations.ExactlyTheListedAccessesArePerformed : Prop :=
  ∀ (s : State) (rest : List HostEvent) (a : Access), s.pending = .access a :: rest →
    ∃ t : State, step s = .next t ∧ t.pending = rest ∧
      (t.answer = .refused ↔
        ¬ ((∃ off, (off = 0x00 ∨ off = 0x04 ∨ off = 0x08 ∨ off = 0x0C ∨ off = 0x10) ∧
              (a = .read .reg .w32 off ∨ ∃ v, a = .write .reg off (.word v))) ∨
           (∃ i, i < Config.unit.ibufCap ∧ (a = .read .ibuf .w8 i ∨ ∃ b, a = .write .ibuf i (.byte b))) ∨
           (∃ i, i < Config.unit.ibufCap + 32 ∧ (a = .read .obuf .w8 i ∨ ∃ b, a = .write .obuf i (.byte b))))) ∧
      (t.answer = .refused → t = { s with pending := rest, answer := .refused })

/-! ### Invariants (10_state.md section 5) -/

/-- The invariant holds at reset. -/
def Obligations.ResetMeetsTheInvariant : Prop := Inv Config.unit State.reset

/-- Every step keeps the invariant: 10_state.md section 5 (a) to (g), IBUF in canonical form inside its capacity, working registers zero (log
entries 7 and 10). -/
def Obligations.StepKeepsTheInvariant : Prop :=
  ∀ s t : State, Inv Config.unit s → step s = .next t → Inv Config.unit t

/-- The invariants (a) to (g) of 10_state.md section 5, which the spec marks as its own derivation, hold in every state a run can reach,
whatever the host does. -/
def Obligations.ReachableStatesKeepTheStateRules : Prop :=
  ∀ s : State, Reachable s →
    ¬ (s.ok = true ∧ s.err = true) ∧ (s.errCode ≠ 0 ↔ s.err = true) ∧ (s.err = true → s.out = []) ∧
    (s.keyValid = false → s.key = Vector.replicate 16 0) ∧ s.out.length ≤ Config.unit.ibufCap + 32 ∧
    (s.errCode = 0 ∨ s.errCode = 2 ∨ s.errCode = 3 ∨ s.errCode = 4 ∨ s.errCode = 5 ∨ s.errCode = 6) ∧
    (s.out.length = 0 ∨ (s.out.length % 16 = 0 ∧ 32 ≤ s.out.length) ∨ s.out.length ≤ Config.unit.ibufCap - 17)

/-- KEY has no address: two states that differ in KEY alone step, on any event but an ENC or a DEC, to states that differ in KEY alone; so no
other access or command tells the host anything of KEY. -/
def Obligations.OnlyEncAndDecRevealTheKey : Prop :=
  ∀ (s : State) (k : Block), ¬ NextIsCommand s 0x00000003 → ¬ NextIsCommand s 0x00000004 →
    ∃ (t : State) (k' : Block), step s = .next t ∧ step { s with key := k } = .next { t with key := k' }

/-! ### The datapath functions (40_datapath_functions.md) -/

/-- R101: xor16 byte by byte, and its three laws. -/
def Obligations.Xor16IsBytewiseWithItsLaws : Prop :=
  ∀ a b : Block, (∀ j : Fin 16, (xor16 a b)[j] = a[j] ^^^ b[j]) ∧ xor16 a b = xor16 b a ∧
    xor16 (xor16 a b) b = a ∧ xor16 a (Vector.replicate 16 0) = a

/-- R103: PadLen is 16 - (L mod 16), always in 1 to 16, and 16 when L is a multiple of 16. -/
def Obligations.PadLenIsOneToSixteen : Prop :=
  ∀ n : Nat, padLen n = 16 - n % 16 ∧ 1 ≤ padLen n ∧ padLen n ≤ 16 ∧ (n % 16 = 0 → padLen n = 16)

/-- R104, R105: Pad appends PadLen bytes of that value; the length, the beginning and the last byte of what it returns. -/
def Obligations.PadAppendsPadLenBytes : Prop :=
  ∀ m : Bytes,
    (pad m).length = m.length + padLen m.length ∧ (pad m).length = 16 * (m.length / 16 + 1) ∧
    (pad m).take m.length = m ∧
    (∀ j, m.length ≤ j → j < (pad m).length → ((pad m).getD j 0).toNat = padLen m.length) ∧
    ∃ b, (pad m).getLast? = some b ∧ b.toNat = padLen m.length

/-- R106: Unpad succeeds exactly on strings that end in p bytes of value p with 1 <= p <= 16, returning what stands before them, and gives
no error but PaddingValidationError. -/
def Obligations.UnpadAcceptsExactlyValidPadding : Prop :=
  ∀ x : Bytes,
    (∀ m : Bytes, unpad x = .ok m ↔
      ∃ p, 1 ≤ p ∧ p ≤ 16 ∧ x = m ++ List.replicate p (BitVec.ofNat 8 p)) ∧
    (∀ k : ErrorKind, unpad x = .error k → k = .paddingValidation)

/-- Unpad undoes Pad (40_datapath_functions.md section 2, the spec's own derivation). -/
def Obligations.UnpadUndoesPad : Prop := ∀ m : Bytes, unpad (pad m) = .ok m

/-- R108: CbcEnc block by block, for any cipher, key, IV and whole number of blocks. -/
def Obligations.CbcEncChainsOnThePreviousCiphertext : Prop :=
  ∀ (encrypt : Block → Block → Block) (k iv : Block) (x : Bytes) (h : x.length % 16 = 0),
    (cbcEnc encrypt k iv x h).length = x.length ∧
    ∀ i, i < x.length / 16 →
      blockAt (cbcEnc encrypt k iv x h) i =
        encrypt k (xor16 (blockAt x i) (if i = 0 then iv else blockAt (cbcEnc encrypt k iv x h) (i - 1)))

/-- R109: CbcDec block by block: `P_i` depends on `C_i` and `C_{i-1}` as received, and on nothing else. -/
def Obligations.CbcDecChainsOnTheReceivedCiphertext : Prop :=
  ∀ (decrypt : Block → Block → Block) (k iv : Block) (c : Bytes) (h : c.length % 16 = 0),
    (cbcDec decrypt k iv c h).length = c.length ∧
    ∀ i, i < c.length / 16 →
      blockAt (cbcDec decrypt k iv c h) i =
        xor16 (decrypt k (blockAt c i)) (if i = 0 then iv else blockAt c (i - 1))

/-- With CipherInverse, CbcDec undoes CbcEnc (40_datapath_functions.md section 3, the spec's own derivation). -/
def Obligations.CbcDecUndoesCbcEnc : Prop :=
  ∀ P : Platform, P.CipherInverse → ∀ (k iv : Block) (x : Bytes) (h : x.length % 16 = 0)
    (h' : (cbcEnc P.blockEncrypt k iv x h).length % 16 = 0),
    cbcDec P.blockDecrypt k iv (cbcEnc P.blockEncrypt k iv x h) h' = x

/-- 40_datapath_functions.md section 4 (that Split undoes Frame is the spec's own derivation): Frame puts the IV in front and adds nothing else; Split takes the first 16 bytes and the rest, and undoes Frame. -/
def Obligations.SplitUndoesFrame : Prop :=
  (∀ (iv : Block) (c : Bytes), (frame iv c).length = 16 + c.length ∧ frame iv c = iv.toList ++ c ∧
    ∀ h : 16 ≤ (frame iv c).length, split (frame iv c) h = (iv, c)) ∧
  (∀ (e : Bytes) (h : 16 ≤ e.length), (split e h).1.toList = e.take 16 ∧ (split e h).2 = e.drop 16)

/-- The two length checks (40_datapath_functions.md section 5); the closed form of the second is the spec's own derivation. -/
def Obligations.LengthChecksInClosedForm : Prop :=
  ∀ n : Nat, (validKey n = true ↔ n = 16) ∧
    (validEnvLen n = false ↔ n < 16 ∨ (n - 16) % 16 ≠ 0 ∨ n - 16 = 0) ∧
    (validEnvLen n = true ↔ 32 ≤ n ∧ n % 16 = 0)

/-- The length of an envelope in its three forms, and its bounds (40_datapath_functions.md section 7; all but the first form is the spec's own
derivation). -/
def Obligations.EnvelopeLengthLaw : Prop :=
  ∀ (encrypt : Block → Block → Block) (k iv : Block) (m : Bytes),
    (encodeFn encrypt k iv m).length = 16 + 16 * ((m.length + 1 + 15) / 16) ∧
    (encodeFn encrypt k iv m).length = 16 + 16 * (m.length / 16 + 1) ∧
    (encodeFn encrypt k iv m).length = 16 + m.length + padLen m.length ∧
    32 ≤ (encodeFn encrypt k iv m).length ∧ (encodeFn encrypt k iv m).length % 16 = 0 ∧
    (encodeFn encrypt k iv m).length ≤ m.length + 32 ∧ validEnvLen (encodeFn encrypt k iv m).length = true

/-- The round trip (40_datapath_functions.md section 7, with the spec's own derivation), for every cipher with CipherInverse, every plaintext, key and IV. -/
def Obligations.DecodeUndoesEncode : Prop :=
  ∀ P : Platform, P.CipherInverse → ∀ (k iv : Block) (m : Bytes),
    decodeFn P.blockDecrypt k (encodeFn P.blockEncrypt k iv m) = .ok m

/-- At the level of the unit (42_codec_commands.md, the spec's own derivation), on any platform with CipherInverse: ENC, COPYBACK by the host's own accesses, DEC end with OK = 1,
OLEN = L and OBUF[0:L] the original operand, for every draw; after the ENC alone OLEN is the length law's. -/
def Obligations.EncCopybackDecReturnsTheOperand : Prop :=
  ∀ P : Platform, P.CipherInverse → ∀ s : State, s.keyValid = true →
    16 + 16 * (s.ilen.toNat / 16 + 1) ≤ P.ibufCap →
    (olenWord (encCommand P s)).toNat = 16 + 16 * ((s.ilen.toNat + 1 + 15) / 16) ∧
    ∃ t : State, runEvents P (copybackEvents (encCommand P s)) (encCommand P s) = .next t ∧
      (decCommand P t).ok = true ∧ olenWord (decCommand P t) = s.ilen ∧
      ∀ a, a < s.ilen.toNat → readObuf a (decCommand P t) = Memory.read s.ibuf a

/-- 40_datapath_functions.md section 8 for ENC: the block-level datapath gives exactly what the command gives, on every platform and state past the pre-checks. -/
def Obligations.EncDatapathRefinesEnc : Prop :=
  ∀ (P : Platform) (s : State), s.keyValid = true → s.ilen.toNat ≤ P.ibufCap →
    encDatapath P s = encCommand P s

/-- 40_datapath_functions.md section 8 for DEC: the block-level datapath gives exactly what the command gives, on every platform and state past the pre-checks. -/
def Obligations.DecDatapathRefinesDec : Prop :=
  ∀ (P : Platform) (s : State), s.keyValid = true → 32 ≤ s.ilen.toNat → s.ilen.toNat % 16 = 0 → s.ilen.toNat ≤ P.ibufCap →
    decDatapath P s = decCommand P s

/-- No integrity: a change of an envelope that leaves its last two ciphertext blocks alone is never detected, whatever the cipher: both
decode, or neither does. -/
def Obligations.TamperingBeforeTheLastTwoBlocksIsUndetected : Prop :=
  ∀ (decrypt : Block → Block → Block) (k : Block) (e e' : Bytes),
    48 ≤ e.length → e.length % 16 = 0 → e'.length = e.length → e'.drop (e.length - 32) = e.drop (e.length - 32) →
    ((∃ m, decodeFn decrypt k e = .ok m) ↔ ∃ m', decodeFn decrypt k e' = .ok m')
end

