-- ==== Sys2Proof/Laws/Datapath.lean ====
section
/-! SUPPORT. The small lemmas of blocks and of block-by-block functions: lengths, joining what was cut, and reading block `i` of a joined
string. -/

namespace Sys2Proof.Machine

open Sys2Proof

@[simp] theorem Block.bytes_length (b : Block) : b.bytes.length = 16 := by simp [Block.bytes]

@[simp] theorem Block.bytes_ofBytes (x : Bytes) (h : x.length = 16) : (Block.ofBytes x h).bytes = x := by
  simp [Block.ofBytes, Block.bytes]

/-- Two blocks with equal bytes are equal. -/
theorem Block.eq_of_bytes {a b : Block} (h : a.bytes = b.bytes) : a = b := by
  simpa [Block.bytes, Vector.toList_inj] using h

@[simp] theorem Block.ofBytes_bytes (b : Block) (h : b.bytes.length = 16) : Block.ofBytes b.bytes h = b :=
  Block.eq_of_bytes (by simp)

@[simp] theorem xor16_get (a b : Block) (j : Nat) (h : j < 16) : (xor16 a b)[j] = a[j] ^^^ b[j] := by simp [xor16]

@[simp] theorem joinBlocks_nil : joinBlocks [] = [] := rfl

@[simp] theorem joinBlocks_cons (b : Block) (bs : List Block) : joinBlocks (b :: bs) = b.bytes ++ joinBlocks bs := rfl

@[simp] theorem joinBlocks_append (as bs : List Block) : joinBlocks (as ++ bs) = joinBlocks as ++ joinBlocks bs := by
  simp [joinBlocks]

@[simp] theorem joinBlocks_length (bs : List Block) : (joinBlocks bs).length = 16 * bs.length := by
  induction bs with
  | nil => rfl
  | cons b rest ih => simp [ih]; omega

@[simp] theorem blocksOf_length (n : Nat) (x : Bytes) (h : x.length = 16 * n) : (blocksOf n x h).length = n := by
  induction n generalizing x with
  | zero => rfl
  | succ n ih => simp [blocksOf, ih]

@[simp] theorem blocks_length (x : Bytes) (h : x.length % 16 = 0) : (blocks x h).length = x.length / 16 := by
  simp [blocks]

/-- What was cut into blocks joins back to itself. -/
theorem joinBlocks_blocksOf (n : Nat) (x : Bytes) (h : x.length = 16 * n) : joinBlocks (blocksOf n x h) = x := by
  induction n generalizing x with
  | zero => simp [blocksOf, List.eq_nil_of_length_eq_zero h]
  | succ n ih => simp [blocksOf, ih]

theorem joinBlocks_blocks (x : Bytes) (h : x.length % 16 = 0) : joinBlocks (blocks x h) = x :=
  joinBlocks_blocksOf _ _ _

/-- Blocks joined and cut again are the same blocks. -/
theorem blocksOf_joinBlocks (bs : List Block) (n : Nat) (h : (joinBlocks bs).length = 16 * n) :
    blocksOf n (joinBlocks bs) h = bs := by
  induction bs generalizing n with
  | nil =>
    obtain rfl : n = 0 := by simpa [eq_comm] using h
    rfl
  | cons b rest ih =>
    cases n with
    | zero => simp at h
    | succ n =>
      have hr : (joinBlocks rest).length = 16 * n := by rw [joinBlocks_cons, List.length_append, Block.bytes_length] at h; omega
      have ht : (joinBlocks (b :: rest)).take 16 = b.bytes := by simp
      have hd : (joinBlocks (b :: rest)).drop 16 = joinBlocks rest := by simp
      simp only [blocksOf, ht, hd, Block.ofBytes_bytes, ih n hr]

theorem blocks_joinBlocks (bs : List Block) (h : (joinBlocks bs).length % 16 = 0) : blocks (joinBlocks bs) h = bs :=
  blocksOf_joinBlocks _ _ _

theorem blockAt_get (x : Bytes) (i : Nat) (j : Nat) (h : j < 16) : (blockAt x i)[j] = x.getD (16 * i + j) 0 := by
  simp [blockAt]

/-- Block 0 of a string that begins with a block. -/
theorem blockAt_append_zero (b : Block) (x : Bytes) : blockAt (b.bytes ++ x) 0 = b := by
  refine Vector.ext fun j h => ?_
  simp [blockAt, Block.bytes, List.getElem?_append]

/-- Later blocks of a string that begins with a block. -/
theorem blockAt_append_succ (b : Block) (x : Bytes) (i : Nat) : blockAt (b.bytes ++ x) (i + 1) = blockAt x i := by
  refine Vector.ext fun j h => ?_
  simp only [blockAt_get _ _ _ h, List.getD_eq_getElem?_getD]
  rw [List.getElem?_append_right (by simp; omega)]
  congr 2
  simp; omega

/-- Block `i` of joined blocks. -/
theorem blockAt_joinBlocks (bs : List Block) (i : Nat) (h : i < bs.length) : blockAt (joinBlocks bs) i = bs[i] := by
  induction bs generalizing i with
  | nil => simp at h
  | cons b rest ih =>
    cases i with
    | zero => exact blockAt_append_zero b _
    | succ i => rw [joinBlocks_cons, blockAt_append_succ]; simpa using ih i (by simpa using h)

/-- Block `i` of a string cut into blocks. -/
theorem blocks_getElem (x : Bytes) (h : x.length % 16 = 0) (i : Nat) (hi : i < (blocks x h).length) :
    (blocks x h)[i] = blockAt x i := by
  rw [← blockAt_joinBlocks _ _ hi, joinBlocks_blocks]

@[simp] theorem cbcEncBlocks_length (encrypt : Block → Block → Block) (k prev : Block) (ps : List Block) :
    (cbcEncBlocks encrypt k prev ps).length = ps.length := by
  induction ps generalizing prev with
  | nil => rfl
  | cons p rest ih => simp [cbcEncBlocks, ih]

@[simp] theorem cbcDecBlocks_length (decrypt : Block → Block → Block) (k prev : Block) (cs : List Block) :
    (cbcDecBlocks decrypt k prev cs).length = cs.length := by
  induction cs generalizing prev with
  | nil => rfl
  | cons p rest ih => simp [cbcDecBlocks, ih]

/-- Block `i` of the encrypted blocks, by the recurrence. -/
theorem cbcEncBlocks_getElem (encrypt : Block → Block → Block) (k prev : Block) (ps : List Block) (i : Nat)
    (h : i < (cbcEncBlocks encrypt k prev ps).length) (hp : i < ps.length) :
    (cbcEncBlocks encrypt k prev ps)[i] =
      encrypt k (xor16 ps[i] (if i = 0 then prev else (cbcEncBlocks encrypt k prev ps)[i - 1]'(by omega))) := by
  induction ps generalizing prev i with
  | nil => simp at hp
  | cons p rest ih =>
    cases i with
    | zero => simp [cbcEncBlocks]
    | succ i =>
      have := ih (encrypt k (xor16 p prev)) i (by simpa using hp) (by simpa using hp)
      simp only [cbcEncBlocks, List.getElem_cons_succ, this]
      cases i <;> simp

/-- Block `i` of the decrypted blocks, by the recurrence. -/
theorem cbcDecBlocks_getElem (decrypt : Block → Block → Block) (k prev : Block) (cs : List Block) (i : Nat)
    (h : i < (cbcDecBlocks decrypt k prev cs).length) (hp : i < cs.length) :
    (cbcDecBlocks decrypt k prev cs)[i] =
      xor16 (decrypt k cs[i]) (if i = 0 then prev else cs[i - 1]'(by omega)) := by
  induction cs generalizing prev i with
  | nil => simp at hp
  | cons p rest ih =>
    cases i with
    | zero => simp [cbcDecBlocks]
    | succ i =>
      have := ih p i (by simpa using hp) (by simpa using hp)
      simp only [cbcDecBlocks, List.getElem_cons_succ, this]
      cases i <;> simp

@[simp] theorem cbcEnc_length (encrypt : Block → Block → Block) (k iv : Block) (x : Bytes) (h : x.length % 16 = 0) :
    (cbcEnc encrypt k iv x h).length = x.length := by
  simp [cbcEnc]; omega

@[simp] theorem cbcDec_length (decrypt : Block → Block → Block) (k iv : Block) (x : Bytes) (h : x.length % 16 = 0) :
    (cbcDec decrypt k iv x h).length = x.length := by
  simp [cbcDec]; omega

@[simp] theorem frame_length (iv : Block) (x : Bytes) : (frame iv x).length = 16 + x.length := by simp [frame]

@[simp] theorem pad_length (m : Bytes) : (pad m).length = 16 * (m.length / 16 + 1) := by
  simp only [pad, padLen, List.length_append, List.length_replicate]; omega

theorem encodeFn_length (encrypt : Block → Block → Block) (k iv : Block) (m : Bytes) :
    (encodeFn encrypt k iv m).length = 16 + 16 * (m.length / 16 + 1) := by
  simp [encodeFn]

theorem validEnvLen_iff (n : Nat) : validEnvLen n = true ↔ 32 ≤ n ∧ n % 16 = 0 := by
  simp [validEnvLen]; omega

/-- An accepted envelope decrypts to what follows its IV in length. -/
theorem decryptEnvelope_length (decrypt : Block → Block → Block) (k : Block) (e : Bytes)
    (h : validEnvLen e.length = true) : (decryptEnvelope decrypt k e h).length = e.length - 16 := by
  simp [decryptEnvelope, split]

/-- A successful Unpad takes off 1 to 16 bytes. -/
theorem unpad_ok_length {x m : Bytes} (h : unpad x = .ok m) : m.length + 1 ≤ x.length ∧ x.length ≤ m.length + 16 := by
  unfold unpad at h
  split at h
  · exact nomatch h
  · next b _ =>
    simp only at h
    split at h
    · exact nomatch h
    · split at h
      · exact nomatch h
      · split at h
        · cases h; simp; omega
        · exact nomatch h

/-- Unpad gives no other error (the one lemma of its failing side). -/
theorem unpad_error {x : Bytes} {k : ErrorKind} (h : unpad x = .error k) : k = .paddingValidation := by
  unfold unpad at h
  split at h
  · cases h; rfl
  · simp only at h
    split at h
    · cases h; rfl
    · split at h
      · cases h; rfl
      · split at h <;> cases h; rfl

end Sys2Proof.Machine
end

