-- ==== Sys2Proof/Laws/Memory.lean ====
section
/-! SUPPORT. The laws of the buffer memory: a read after a write, the canonical form kept by every operation, and equal contents being
equal data. -/

namespace Sys2Proof.Machine

@[simp] theorem Memory.read_nil (a : Nat) : Memory.read [] a = 0 := rfl

theorem Memory.read_cons (c : Host.Cell) (m : Memory) (a : Nat) :
    Memory.read (c :: m) a = if c.1 = a then c.2 else Memory.read m a := rfl

theorem Memory.mem_erase {m : Memory} {a : Nat} {c : Host.Cell} : c ∈ Memory.erase m a ↔ c ∈ m ∧ c.1 ≠ a := by
  simp [Memory.erase]

theorem Memory.read_erase (m : Memory) (a a' : Nat) :
    Memory.read (Memory.erase m a) a' = if a' = a then 0 else Memory.read m a' := by
  induction m with
  | nil => simp [Memory.erase]
  | cons c rest ih =>
    simp only [Memory.erase, List.filter_cons] at ih ⊢
    by_cases h : c.1 = a <;> by_cases h' : c.1 = a' <;> simp_all [Memory.read_cons]

theorem Memory.mem_insert {c d : Host.Cell} {m : Memory} : d ∈ Memory.insert c m ↔ d = c ∨ d ∈ m := by
  induction m with
  | nil => simp [Memory.insert]
  | cons e rest ih =>
    unfold Memory.insert
    split
    · simp
    · simp [ih]; tauto

/-- Reading a memory into which an index not listed in it was put. -/
theorem Memory.read_insert (c : Host.Cell) (m : Memory) (a : Nat) (h : ∀ d ∈ m, d.1 ≠ c.1) :
    Memory.read (Memory.insert c m) a = if a = c.1 then c.2 else Memory.read m a := by
  induction m with
  | nil => simp [Memory.insert, Memory.read_cons, eq_comm]
  | cons e rest ih =>
    have he : e.1 ≠ c.1 := h e (by simp)
    have ih := ih fun d hd => h d (by simp [hd])
    unfold Memory.insert
    split
    · simp [Memory.read_cons, eq_comm]
    · rw [Memory.read_cons, ih, Memory.read_cons]
      by_cases h1 : e.1 = a
      · subst h1; simp [he]
      · simp [h1]

/-- A read after a write: the byte written at that index, and the old byte everywhere else. -/
theorem Memory.read_write (m : Memory) (a a' : Nat) (b : Byte) :
    Memory.read (Memory.write m a b) a' = if a' = a then b else Memory.read m a' := by
  unfold Memory.write
  split
  · next h => rw [Memory.read_erase, h]
  · rw [Memory.read_insert _ _ _ fun d hd => (Memory.mem_erase.mp hd).2]
    by_cases h : a' = a <;> simp [h, Memory.read_erase]

@[simp] theorem Memory.read_write_same (m : Memory) (a : Nat) (b : Byte) : Memory.read (Memory.write m a b) a = b := by
  simp [Memory.read_write]

theorem Memory.read_write_other (m : Memory) {a a' : Nat} (b : Byte) (h : a' ≠ a) :
    Memory.read (Memory.write m a b) a' = Memory.read m a' := by
  simp [Memory.read_write, h]

/-- What a write can list: the cell written and cells listed before. -/
theorem Memory.mem_write {m : Memory} {a : Nat} {b : Byte} {d : Host.Cell} (h : d ∈ Memory.write m a b) :
    d = (a, b) ∨ d ∈ m := by
  unfold Memory.write at h
  split at h
  · exact .inr (Memory.mem_erase.mp h).1
  · rcases Memory.mem_insert.mp h with h | h
    · exact .inl h
    · exact .inr (Memory.mem_erase.mp h).1

theorem Memory.wf_cons {c : Host.Cell} {m : Memory} :
    Memory.wf (c :: m) = true ↔ c.2 ≠ 0 ∧ (∀ d ∈ m, c.1 < d.1) ∧ Memory.wf m = true := by
  simp [Memory.wf, and_assoc]

theorem Memory.wf_erase {m : Memory} (a : Nat) (h : Memory.wf m = true) : Memory.wf (Memory.erase m a) = true := by
  induction m with
  | nil => rfl
  | cons c rest ih =>
    obtain ⟨h0, hlt, hr⟩ := Memory.wf_cons.mp h
    by_cases hc : c.1 = a
    · simpa [Memory.erase, List.filter_cons, hc] using ih hr
    · have : Memory.erase (c :: rest) a = c :: Memory.erase rest a := by simp [Memory.erase, hc]
      rw [this]
      exact Memory.wf_cons.mpr ⟨h0, fun d hd => hlt d (Memory.mem_erase.mp hd).1, ih hr⟩

theorem Memory.wf_insert {c : Host.Cell} {m : Memory} (h0 : c.2 ≠ 0) (hne : ∀ d ∈ m, d.1 ≠ c.1)
    (h : Memory.wf m = true) : Memory.wf (Memory.insert c m) = true := by
  induction m with
  | nil => simpa [Memory.insert, Memory.wf] using h0
  | cons e rest ih =>
    obtain ⟨he0, hlt, hr⟩ := Memory.wf_cons.mp h
    unfold Memory.insert
    split
    · next hce =>
      refine Memory.wf_cons.mpr ⟨h0, fun d hd => ?_, h⟩
      rcases List.mem_cons.mp hd with rfl | hd
      · exact hce
      · exact hce.trans (hlt d hd)
    · next hce =>
      refine Memory.wf_cons.mpr ⟨he0, fun d hd => ?_, ih (fun d hd => hne d (by simp [hd])) hr⟩
      rcases Memory.mem_insert.mp hd with rfl | hd
      · have := hne e (by simp); omega
      · exact hlt d hd

/-- A write keeps the canonical form. -/
theorem Memory.wf_write {m : Memory} (a : Nat) (b : Byte) (h : Memory.wf m = true) :
    Memory.wf (Memory.write m a b) = true := by
  unfold Memory.write
  split
  · exact Memory.wf_erase a h
  · next hb => exact Memory.wf_insert hb (fun d hd => (Memory.mem_erase.mp hd).2) (Memory.wf_erase a h)

theorem Memory.read_eq_zero_of_lt {m : Memory} {a : Nat} (h : ∀ d ∈ m, a < d.1) : Memory.read m a = 0 := by
  induction m with
  | nil => rfl
  | cons c rest ih =>
    have : c.1 ≠ a := (h c (by simp)).ne'
    rw [Memory.read_cons, if_neg this, ih fun d hd => h d (by simp [hd])]

/-- Two memories in canonical form with equal contents are equal data. -/
theorem Memory.ext_of_wf {m m' : Memory} (h : Memory.wf m = true) (h' : Memory.wf m' = true)
    (heq : ∀ a, Memory.read m a = Memory.read m' a) : m = m' := by
  induction m generalizing m' with
  | nil =>
    cases m' with
    | nil => rfl
    | cons d r =>
      have := heq d.1
      simp [Memory.read_cons] at this
      exact absurd this.symm (Memory.wf_cons.mp h').1
  | cons c rest ih =>
    obtain ⟨h0, hlt, hr⟩ := Memory.wf_cons.mp h
    cases m' with
    | nil =>
      have := heq c.1
      simp [Memory.read_cons] at this
      exact absurd this h0
    | cons d r =>
      obtain ⟨h0', hlt', hr'⟩ := Memory.wf_cons.mp h'
      have key : c.1 = d.1 := by
        rcases lt_trichotomy c.1 d.1 with hcd | hcd | hcd
        · have := heq c.1
          rw [Memory.read_cons, if_pos rfl, Memory.read_eq_zero_of_lt (m := d :: r)] at this
          · exact absurd this h0
          · intro e he
            rcases List.mem_cons.mp he with rfl | he
            · exact hcd
            · exact hcd.trans (hlt' e he)
        · exact hcd
        · have := heq d.1
          rw [Memory.read_cons (c := d), if_pos rfl, Memory.read_eq_zero_of_lt (m := c :: rest)] at this
          · exact absurd this.symm h0'
          · intro e he
            rcases List.mem_cons.mp he with rfl | he
            · exact hcd
            · exact hcd.trans (hlt e he)
      have hv : c = d := by
        have := heq c.1
        rw [Memory.read_cons, if_pos rfl, Memory.read_cons, if_pos key.symm] at this
        exact Prod.ext key this
      subst hv
      congr 1
      refine ih hr hr' fun a => ?_
      by_cases ha : c.1 = a
      · subst ha
        rw [Memory.read_eq_zero_of_lt hlt, Memory.read_eq_zero_of_lt hlt']
      · have := heq a
        simpa [Memory.read_cons, ha] using this

@[simp] theorem memRead_length (m : Memory) (a n : Nat) : (memRead m a n).length = n := by simp [memRead]

theorem memRead_getD (m : Memory) {a n i : Nat} (h : i < n) : (memRead m a n).getD i 0 = Memory.read m (a + i) := by
  simp [memRead, List.getD, h]

theorem memReadBlock_get (m : Memory) (a : Nat) (j : Fin 16) : (memReadBlock m a)[j] = Memory.read m (a + j.val) := by
  simp [memReadBlock]

end Sys2Proof.Machine
end

