-- ==== Sys2Proof/Laws/PerInstr.lean ====
section
/-! SUPPORT. Facts of every command as syntax, one lemma per constructor (LAWS.json "per_instruction"). -/

namespace Sys2Proof

/-- The command's fields are well formed, and its word has exactly those fields (30_encoding.md R80, R82). -/
def Laws.EncodingFields.Statement (i : Instr) : Prop :=
  (fieldsOf i).wellFormed = true ∧ wordFields (encode i) = fieldsOf i

theorem Laws.EncodingFields.ldkey : Laws.EncodingFields.Statement .ldkey := ⟨by decide, by decide⟩
theorem Laws.EncodingFields.venv : Laws.EncodingFields.Statement .venv := ⟨by decide, by decide⟩
theorem Laws.EncodingFields.enc : Laws.EncodingFields.Statement .enc := ⟨by decide, by decide⟩
theorem Laws.EncodingFields.dec : Laws.EncodingFields.Statement .dec := ⟨by decide, by decide⟩

end Sys2Proof
end

