-- ==== Sys2Proof/Laws/State.lean ====
section
/-! SUPPORT. One lemma per field per update of the state, all true by unfolding, so that no later proof unfolds a record update. -/

namespace Sys2Proof.Machine

@[simp] theorem complete_key (out : Bytes) (s : State) : (complete out s).key = s.key := rfl
@[simp] theorem complete_keyValid (out : Bytes) (s : State) : (complete out s).keyValid = s.keyValid := rfl
@[simp] theorem complete_ibuf (out : Bytes) (s : State) : (complete out s).ibuf = s.ibuf := rfl
@[simp] theorem complete_ilen (out : Bytes) (s : State) : (complete out s).ilen = s.ilen := rfl
@[simp] theorem complete_out (out : Bytes) (s : State) : (complete out s).out = out := rfl
@[simp] theorem complete_ok (out : Bytes) (s : State) : (complete out s).ok = true := rfl
@[simp] theorem complete_err (out : Bytes) (s : State) : (complete out s).err = false := rfl
@[simp] theorem complete_errCode (out : Bytes) (s : State) : (complete out s).errCode = 0 := rfl
@[simp] theorem complete_work (out : Bytes) (s : State) : (complete out s).work = Working.zero := rfl
@[simp] theorem complete_pending (out : Bytes) (s : State) : (complete out s).pending = s.pending := rfl
@[simp] theorem complete_answer (out : Bytes) (s : State) : (complete out s).answer = s.answer := rfl
@[simp] theorem complete_draws (out : Bytes) (s : State) : (complete out s).draws = s.draws := rfl

@[simp] theorem raise_key (k : ErrorKind) (s : State) : (raise k s).key = s.key := rfl
@[simp] theorem raise_keyValid (k : ErrorKind) (s : State) : (raise k s).keyValid = s.keyValid := rfl
@[simp] theorem raise_ibuf (k : ErrorKind) (s : State) : (raise k s).ibuf = s.ibuf := rfl
@[simp] theorem raise_ilen (k : ErrorKind) (s : State) : (raise k s).ilen = s.ilen := rfl
@[simp] theorem raise_out (k : ErrorKind) (s : State) : (raise k s).out = [] := rfl
@[simp] theorem raise_ok (k : ErrorKind) (s : State) : (raise k s).ok = false := rfl
@[simp] theorem raise_err (k : ErrorKind) (s : State) : (raise k s).err = true := rfl
@[simp] theorem raise_errCode (k : ErrorKind) (s : State) : (raise k s).errCode = k.code := rfl
@[simp] theorem raise_work (k : ErrorKind) (s : State) : (raise k s).work = Working.zero := rfl
@[simp] theorem raise_pending (k : ErrorKind) (s : State) : (raise k s).pending = s.pending := rfl
@[simp] theorem raise_answer (k : ErrorKind) (s : State) : (raise k s).answer = s.answer := rfl
@[simp] theorem raise_draws (k : ErrorKind) (s : State) : (raise k s).draws = s.draws := rfl

@[simp] theorem setKey_key (k : Block) (v : Bool) (s : State) : (setKey k v s).key = k := rfl
@[simp] theorem setKey_keyValid (k : Block) (v : Bool) (s : State) : (setKey k v s).keyValid = v := rfl
@[simp] theorem setKey_ibuf (k : Block) (v : Bool) (s : State) : (setKey k v s).ibuf = s.ibuf := rfl
@[simp] theorem setKey_ilen (k : Block) (v : Bool) (s : State) : (setKey k v s).ilen = s.ilen := rfl
@[simp] theorem setKey_out (k : Block) (v : Bool) (s : State) : (setKey k v s).out = s.out := rfl
@[simp] theorem setKey_ok (k : Block) (v : Bool) (s : State) : (setKey k v s).ok = s.ok := rfl
@[simp] theorem setKey_err (k : Block) (v : Bool) (s : State) : (setKey k v s).err = s.err := rfl
@[simp] theorem setKey_errCode (k : Block) (v : Bool) (s : State) : (setKey k v s).errCode = s.errCode := rfl
@[simp] theorem setKey_work (k : Block) (v : Bool) (s : State) : (setKey k v s).work = s.work := rfl
@[simp] theorem setKey_pending (k : Block) (v : Bool) (s : State) : (setKey k v s).pending = s.pending := rfl
@[simp] theorem setKey_answer (k : Block) (v : Bool) (s : State) : (setKey k v s).answer = s.answer := rfl
@[simp] theorem setKey_draws (k : Block) (v : Bool) (s : State) : (setKey k v s).draws = s.draws := rfl

@[simp] theorem takeDraw_key (s : State) : (takeDraw s).key = s.key := rfl
@[simp] theorem takeDraw_keyValid (s : State) : (takeDraw s).keyValid = s.keyValid := rfl
@[simp] theorem takeDraw_ibuf (s : State) : (takeDraw s).ibuf = s.ibuf := rfl
@[simp] theorem takeDraw_ilen (s : State) : (takeDraw s).ilen = s.ilen := rfl
@[simp] theorem takeDraw_out (s : State) : (takeDraw s).out = s.out := rfl
@[simp] theorem takeDraw_ok (s : State) : (takeDraw s).ok = s.ok := rfl
@[simp] theorem takeDraw_err (s : State) : (takeDraw s).err = s.err := rfl
@[simp] theorem takeDraw_errCode (s : State) : (takeDraw s).errCode = s.errCode := rfl
@[simp] theorem takeDraw_work (s : State) : (takeDraw s).work = s.work := rfl
@[simp] theorem takeDraw_pending (s : State) : (takeDraw s).pending = s.pending := rfl
@[simp] theorem takeDraw_answer (s : State) : (takeDraw s).answer = s.answer := rfl
@[simp] theorem takeDraw_draws (s : State) : (takeDraw s).draws = s.draws + 1 := rfl

@[simp] theorem setIlen_key (v : Word) (s : State) : (setIlen v s).key = s.key := rfl
@[simp] theorem setIlen_keyValid (v : Word) (s : State) : (setIlen v s).keyValid = s.keyValid := rfl
@[simp] theorem setIlen_ibuf (v : Word) (s : State) : (setIlen v s).ibuf = s.ibuf := rfl
@[simp] theorem setIlen_ilen (v : Word) (s : State) : (setIlen v s).ilen = v := rfl
@[simp] theorem setIlen_out (v : Word) (s : State) : (setIlen v s).out = s.out := rfl
@[simp] theorem setIlen_ok (v : Word) (s : State) : (setIlen v s).ok = s.ok := rfl
@[simp] theorem setIlen_err (v : Word) (s : State) : (setIlen v s).err = s.err := rfl
@[simp] theorem setIlen_errCode (v : Word) (s : State) : (setIlen v s).errCode = s.errCode := rfl
@[simp] theorem setIlen_work (v : Word) (s : State) : (setIlen v s).work = s.work := rfl
@[simp] theorem setIlen_pending (v : Word) (s : State) : (setIlen v s).pending = s.pending := rfl
@[simp] theorem setIlen_answer (v : Word) (s : State) : (setIlen v s).answer = s.answer := rfl
@[simp] theorem setIlen_draws (v : Word) (s : State) : (setIlen v s).draws = s.draws := rfl

@[simp] theorem writeIbuf_key (a : Nat) (b : Byte) (s : State) : (writeIbuf a b s).key = s.key := rfl
@[simp] theorem writeIbuf_keyValid (a : Nat) (b : Byte) (s : State) : (writeIbuf a b s).keyValid = s.keyValid := rfl
@[simp] theorem writeIbuf_ibuf (a : Nat) (b : Byte) (s : State) : (writeIbuf a b s).ibuf = Memory.write s.ibuf a b := rfl
@[simp] theorem writeIbuf_ilen (a : Nat) (b : Byte) (s : State) : (writeIbuf a b s).ilen = s.ilen := rfl
@[simp] theorem writeIbuf_out (a : Nat) (b : Byte) (s : State) : (writeIbuf a b s).out = s.out := rfl
@[simp] theorem writeIbuf_ok (a : Nat) (b : Byte) (s : State) : (writeIbuf a b s).ok = s.ok := rfl
@[simp] theorem writeIbuf_err (a : Nat) (b : Byte) (s : State) : (writeIbuf a b s).err = s.err := rfl
@[simp] theorem writeIbuf_errCode (a : Nat) (b : Byte) (s : State) : (writeIbuf a b s).errCode = s.errCode := rfl
@[simp] theorem writeIbuf_work (a : Nat) (b : Byte) (s : State) : (writeIbuf a b s).work = s.work := rfl
@[simp] theorem writeIbuf_pending (a : Nat) (b : Byte) (s : State) : (writeIbuf a b s).pending = s.pending := rfl
@[simp] theorem writeIbuf_answer (a : Nat) (b : Byte) (s : State) : (writeIbuf a b s).answer = s.answer := rfl
@[simp] theorem writeIbuf_draws (a : Nat) (b : Byte) (s : State) : (writeIbuf a b s).draws = s.draws := rfl

@[simp] theorem respond_key (r : Answer) (s : State) : (respond r s).key = s.key := rfl
@[simp] theorem respond_keyValid (r : Answer) (s : State) : (respond r s).keyValid = s.keyValid := rfl
@[simp] theorem respond_ibuf (r : Answer) (s : State) : (respond r s).ibuf = s.ibuf := rfl
@[simp] theorem respond_ilen (r : Answer) (s : State) : (respond r s).ilen = s.ilen := rfl
@[simp] theorem respond_out (r : Answer) (s : State) : (respond r s).out = s.out := rfl
@[simp] theorem respond_ok (r : Answer) (s : State) : (respond r s).ok = s.ok := rfl
@[simp] theorem respond_err (r : Answer) (s : State) : (respond r s).err = s.err := rfl
@[simp] theorem respond_errCode (r : Answer) (s : State) : (respond r s).errCode = s.errCode := rfl
@[simp] theorem respond_work (r : Answer) (s : State) : (respond r s).work = s.work := rfl
@[simp] theorem respond_pending (r : Answer) (s : State) : (respond r s).pending = s.pending := rfl
@[simp] theorem respond_answer (r : Answer) (s : State) : (respond r s).answer = r := rfl
@[simp] theorem respond_draws (r : Answer) (s : State) : (respond r s).draws = s.draws := rfl

@[simp] theorem resetUnit_key (s : State) : (resetUnit s).key = State.reset.key := rfl
@[simp] theorem resetUnit_keyValid (s : State) : (resetUnit s).keyValid = State.reset.keyValid := rfl
@[simp] theorem resetUnit_ibuf (s : State) : (resetUnit s).ibuf = State.reset.ibuf := rfl
@[simp] theorem resetUnit_ilen (s : State) : (resetUnit s).ilen = State.reset.ilen := rfl
@[simp] theorem resetUnit_out (s : State) : (resetUnit s).out = State.reset.out := rfl
@[simp] theorem resetUnit_ok (s : State) : (resetUnit s).ok = State.reset.ok := rfl
@[simp] theorem resetUnit_err (s : State) : (resetUnit s).err = State.reset.err := rfl
@[simp] theorem resetUnit_errCode (s : State) : (resetUnit s).errCode = State.reset.errCode := rfl
@[simp] theorem resetUnit_work (s : State) : (resetUnit s).work = State.reset.work := rfl
@[simp] theorem resetUnit_pending (s : State) : (resetUnit s).pending = s.pending := rfl
@[simp] theorem resetUnit_answer (s : State) : (resetUnit s).answer = State.reset.answer := rfl
@[simp] theorem resetUnit_draws (s : State) : (resetUnit s).draws = s.draws := rfl

end Sys2Proof.Machine
end

