-- ==== Sys2Proof/Laws/Step.lean ====
section
/-! SUPPORT. What a command, an access and a step can do, each said once: later proofs cite these and unfold nothing. -/

namespace Sys2Proof.Machine

open Sys2Proof

/-- The ways DecodeFn can end on a length that passed its check. -/
theorem decodeFn_error {decrypt : Block → Block → Block} {k : Block} {e : Bytes} {err : ErrorKind}
    (hv : validEnvLen e.length = true) (h : decodeFn decrypt k e = .error err) : err = .paddingValidation := by
  rw [decodeFn, dif_pos hv] at h
  exact unpad_error h

theorem decodeFn_ok_length {decrypt : Block → Block → Block} {k : Block} {e m : Bytes}
    (h : decodeFn decrypt k e = .ok m) : m.length + 17 ≤ e.length := by
  unfold decodeFn at h
  split at h
  · next hv =>
    have h1 := unpad_ok_length h
    have h2 := (validEnvLen_iff _).mp hv
    rw [decryptEnvelope_length] at h1
    omega
  · exact nomatch h

@[simp] theorem operand_length (s : State) : (operand s).length = s.ilen.toNat := by simp [operand, operandLength]

/-- What ENC can do. -/
theorem encCommand_cases (P : Platform) (s : State) :
    (s.keyValid = false ∧ encCommand P s = raise .invalidKey s) ∨
    (s.keyValid = true ∧ P.ibufCap < s.ilen.toNat ∧ encCommand P s = raise .capacity s) ∨
    (s.keyValid = true ∧ s.ilen.toNat ≤ P.ibufCap ∧
      encCommand P s = complete (encodeFn P.blockEncrypt s.key (P.draw s.draws) (operand s)) (takeDraw s)) := by
  unfold encCommand operandLength
  cases hk : s.keyValid
  · simp
  · by_cases hc : P.ibufCap < s.ilen.toNat
    · simp [hc]
    · simp [hc]; omega

/-- What DEC can do. -/
theorem decCommand_cases (P : Platform) (s : State) :
    (s.keyValid = false ∧ decCommand P s = raise .invalidKey s) ∨
    (s.keyValid = true ∧ validEnvLen s.ilen.toNat = false ∧ decCommand P s = raise .invalidEnvelope s) ∨
    (s.keyValid = true ∧ validEnvLen s.ilen.toNat = true ∧ P.ibufCap < s.ilen.toNat ∧
      decCommand P s = raise .capacity s) ∨
    (s.keyValid = true ∧ validEnvLen s.ilen.toNat = true ∧ s.ilen.toNat ≤ P.ibufCap ∧
      decodeFn P.blockDecrypt s.key (operand s) = .error .paddingValidation ∧
      decCommand P s = raise .paddingValidation s) ∨
    (s.keyValid = true ∧ validEnvLen s.ilen.toNat = true ∧ s.ilen.toNat ≤ P.ibufCap ∧
      ∃ m, decodeFn P.blockDecrypt s.key (operand s) = .ok m ∧ decCommand P s = complete m s) := by
  unfold decCommand operandLength
  cases hk : s.keyValid
  · simp
  · cases hv : validEnvLen s.ilen.toNat
    · simp
    · by_cases hc : P.ibufCap < s.ilen.toNat
      · simp [hc]
      · cases hd : decodeFn P.blockDecrypt s.key (operand s) with
        | error k =>
          obtain rfl := decodeFn_error (by simpa using hv) hd
          simp [hc]; omega
        | ok m => simp [hc]; omega

/-- What LDKEY can do. -/
theorem ldkeyCommand_cases (s : State) :
    (s.ilen.toNat = 16 ∧ ldkeyCommand s = complete [] (setKey (presentedKey s) true s)) ∨
    (s.ilen.toNat ≠ 16 ∧ ldkeyCommand s = raise .invalidKey (setKey Block.zero false s)) := by
  unfold ldkeyCommand operandLength validKey
  by_cases h : s.ilen.toNat = 16 <;> simp [h]

/-- What VENV can do. -/
theorem venvCommand_cases (s : State) :
    (validEnvLen s.ilen.toNat = true ∧ venvCommand s = complete [] s) ∨
    (validEnvLen s.ilen.toNat = false ∧ venvCommand s = raise .invalidEnvelope s) := by
  unfold venvCommand operandLength
  cases h : validEnvLen s.ilen.toNat <;> simp

/-- What any command can do, told by its two completions and by what it wrote before. -/
theorem exec_cases (i : Instr) (s : State) :
    (i = .ldkey ∧ s.ilen.toNat = 16 ∧ exec i s = .next (complete [] (setKey (presentedKey s) true s))) ∨
    (i = .ldkey ∧ s.ilen.toNat ≠ 16 ∧ exec i s = .next (raise .invalidKey (setKey Block.zero false s))) ∨
    (i = .venv ∧ exec i s = .next (complete [] s)) ∨
    ((i = .venv ∨ i = .dec) ∧ exec i s = .next (raise .invalidEnvelope s)) ∨
    ((i = .enc ∨ i = .dec) ∧ s.keyValid = false ∧ exec i s = .next (raise .invalidKey s)) ∨
    ((i = .enc ∨ i = .dec) ∧ s.keyValid = true ∧ Config.unit.ibufCap < s.ilen.toNat ∧
      exec i s = .next (raise .capacity s)) ∨
    (i = .dec ∧ exec i s = .next (raise .paddingValidation s)) ∨
    (i = .enc ∧ s.keyValid = true ∧ s.ilen.toNat ≤ Config.unit.ibufCap ∧
      exec i s = .next
        (complete (encodeFn Config.unit.blockEncrypt s.key (Config.unit.draw s.draws) (operand s)) (takeDraw s))) ∨
    (i = .dec ∧ s.ilen.toNat ≤ Config.unit.ibufCap ∧ ∃ m, m.length + 17 ≤ s.ilen.toNat ∧
      exec i s = .next (complete m s)) := by
  cases i with
  | ldkey => rcases ldkeyCommand_cases s with ⟨h, e⟩ | ⟨h, e⟩ <;> simp [exec, execLdkey, e, h]
  | venv => rcases venvCommand_cases s with ⟨h, e⟩ | ⟨h, e⟩ <;> simp [exec, execVenv, e]
  | enc =>
    rcases encCommand_cases Config.unit s with ⟨h, e⟩ | ⟨h, hc, e⟩ | ⟨h, hc, e⟩ <;>
      simp_all [exec, execEnc]
  | dec =>
    rcases decCommand_cases Config.unit s with ⟨h, e⟩ | ⟨h, hv, e⟩ | ⟨h, hv, hc, e⟩ | ⟨h, hv, hc, _, e⟩ |
      ⟨h, hv, hc, m, hm, e⟩
    · simp [exec, execDec, e, h]
    · simp [exec, execDec, e]
    · simp [exec, execDec, e, h, hc]
    · simp [exec, execDec, e]
    · have := decodeFn_ok_length hm
      exact .inr (.inr (.inr (.inr (.inr (.inr (.inr (.inr
        ⟨rfl, hc, m, by simpa using this, by simp [exec, execDec, e]⟩)))))))

/-- Command issue: the decoded command, or IllegalCommandError. -/
theorem issue_cases (w : Word) (s : State) :
    (∃ i, decode w = .ok i ∧ issue w s = exec i s) ∨
    (∃ e, decode w = .error e ∧ issue w s = .next (raise .illegalCommand s)) := by
  unfold issue
  cases h : decode w <;> simp

/-- The register at an offset is the one of that offset. -/
theorem regAt_eq_some {off : Nat} {r : Reg} : regAt off = some r ↔ off = r.offset := by
  unfold regAt
  split_ifs with h1 h2 h3 h4 h5 <;> cases r <;> simp_all [Reg.offset]

/-- No command and no illegal word stops the unit. -/
theorem issue_next (w : Word) (s : State) : ∃ t, issue w s = .next t := by
  rcases issue_cases w s with ⟨i, -, h⟩ | ⟨e, -, h⟩
  · rcases exec_cases i s with ⟨-, -, e⟩ | ⟨-, -, e⟩ | ⟨-, e⟩ | ⟨-, e⟩ | ⟨-, -, e⟩ | ⟨-, -, -, e⟩ | ⟨-, e⟩ |
      ⟨-, -, -, e⟩ | ⟨-, -, m, -, e⟩ <;> exact ⟨_, h.trans e⟩
  · exact ⟨_, h⟩

/-- What a host access can do: issue a command, store ILEN, store a byte of IBUF, or give an answer and change nothing. -/
theorem access_cases (P : Platform) (a : Access) (s : State) :
    (∃ w, a = .write .reg 0x00 (.word w) ∧ access P a s = issue w (respond .done s)) ∨
    (∃ v, a = .write .reg 0x0C (.word v) ∧ access P a s = .next (respond .done (setIlen v s))) ∨
    (∃ i b, i < P.ibufCap ∧ a = .write .ibuf i (.byte b) ∧
      access P a s = .next (respond .done (writeIbuf i b s))) ∨
    ((∀ w, a ≠ .write .reg 0x00 (.word w)) ∧ ∃ r, access P a s = .next (respond r s)) := by
  unfold access refuseAccess
  split
  · split <;> exact .inr (.inr (.inr ⟨by simp, _, rfl⟩))
  · next off v =>
    split
    · next r h =>
      obtain rfl := regAt_eq_some.mp h
      cases r with
      | cmd => exact .inl ⟨v, rfl, rfl⟩
      | ilen => exact .inr (.inl ⟨v, rfl, rfl⟩)
      | status => exact .inr (.inr (.inr ⟨by simp [Reg.offset], _, rfl⟩))
      | errcode => exact .inr (.inr (.inr ⟨by simp [Reg.offset], _, rfl⟩))
      | olen => exact .inr (.inr (.inr ⟨by simp [Reg.offset], _, rfl⟩))
    · next h =>
      have : off ≠ 0 := by rintro rfl; simp [regAt] at h
      exact .inr (.inr (.inr ⟨by simp [this], _, rfl⟩))
  · split <;> exact .inr (.inr (.inr ⟨by simp, _, rfl⟩))
  · next i b =>
    split
    · next h => exact .inr (.inr (.inl ⟨i, b, h, rfl, rfl⟩))
    · exact .inr (.inr (.inr ⟨by simp, _, rfl⟩))
  · split <;> exact .inr (.inr (.inr ⟨by simp, _, rfl⟩))
  · split <;> exact .inr (.inr (.inr ⟨by simp, _, rfl⟩))
  · exact .inr (.inr (.inr ⟨by simp, _, rfl⟩))
  · refine .inr (.inr (.inr ⟨?_, _, rfl⟩))
    rintro w ⟨⟩
    simp_all

/-- What a step can do. -/
theorem step_cases (s : State) :
    (s.pending = [] ∧ step s = .next s) ∨
    (∃ rest, s.pending = .reset :: rest ∧ step s = .next (resetUnit { s with pending := rest })) ∨
    (∃ a rest, s.pending = .access a :: rest ∧ step s = access Config.unit a { s with pending := rest }) := by
  unfold step takeEvent
  cases h : s.pending with
  | nil => simp
  | cons e rest => cases e <;> simp [hostEvent]

end Sys2Proof.Machine
end

