-- ==== Sys2Proof/Tests/Slice0.lean ====
section
/-! SUPPORT. The model's own tests: the smoke tests of WellFormed, the decoding of words written out from the spec, vectors of
95_test_vectors.md run on its test ciphers, and a witness for the hypotheses of each statement of Certificates/Slice0/Obligations.lean. -/

namespace Sys2Proof.Machine.Tests

open Sys2Proof Sys2Proof.Machine

/-! ### WellFormed refuses what each check is for -/

theorem test_wellFormed_refuses_reserved : (CommandWord.mk 0x000001 0x03).reservedClear = false := by decide
theorem test_wellFormed_refuses_operation_zero : (CommandWord.mk 0 0x00).operationAssigned = false := by decide
theorem test_wellFormed_refuses_operation_five : (CommandWord.mk 0 0x05).operationAssigned = false := by decide
theorem test_wellFormed_refuses_either :
    (CommandWord.mk 0x800000 0x01).wellFormed = false ∧ (CommandWord.mk 0 0xFF).wellFormed = false := by decide

/-! ### Decode: RSV[31:8] then OP[7:0], bit by bit from 30_encoding.md R80 and R82 -/

theorem test_decode_ldkey : decode 0b000000000000000000000000_00000001 = .ok .ldkey := by decide
theorem test_decode_venv : decode 0b000000000000000000000000_00000010 = .ok .venv := by decide
theorem test_decode_enc : decode 0b000000000000000000000000_00000011 = .ok .enc := by decide
theorem test_decode_dec : decode 0b000000000000000000000000_00000100 = .ok .dec := by decide
theorem test_decode_illegal_operations :
    decode 0x00000000 = .error (.operationUnassigned 0x00) ∧ decode 0x00000005 = .error (.operationUnassigned 0x05) ∧
    decode 0x000000FF = .error (.operationUnassigned 0xFF) := by decide
theorem test_decode_illegal_reserved :
    decode 0x00000103 = .error (.reservedNonzero 1) ∧ decode 0x80000001 = .error (.reservedNonzero 0x800000) ∧
    decode 0xFFFFFFFF = .error (.reservedNonzero 0xFFFFFF) := by decide
theorem test_encode_words :
    encode .ldkey = 0x00000001 ∧ encode .venv = 0x00000002 ∧ encode .enc = 0x00000003 ∧ encode .dec = 0x00000004 := by
  decide
theorem test_table_word_short : decodeTableWord 8 0x03 = some .enc ∧ decodeTableWord 64 0x03 = none := by decide

/-! ### The test ciphers and constants of 95_test_vectors.md section 2 -/

/-- `n` bytes of one value. -/
def rep (n : Nat) (v : Byte) : Bytes := List.replicate n v
/-- `n` bytes counting up. -/
def upFrom (v : Byte) (n : Nat) : Bytes := (List.range n).map fun i => v + BitVec.ofNat 8 i
/-- A block counting up. -/
def blockFrom (v : Byte) : Block := Vector.ofFn fun j => v + BitVec.ofNat 8 j.val

/-- TC2.E. -/
def tc2E (k b : Block) : Block :=
  Vector.ofFn fun j => (b[(j.val + 1) % 16] ^^^ k[(j.val + 1) % 16]) + 1
/-- TC2.D. -/
def tc2D (k b : Block) : Block :=
  Vector.ofFn fun j => (b[(j.val + 15) % 16] - 1) ^^^ k[j]

/-- The unit of the vectors: TC2, IBUF_CAP = 64, every draw IV1. -/
def tc2 : Platform where
  ibufCap := 64
  blockEncrypt := tc2E
  blockDecrypt := tc2D
  draw := fun _ => blockFrom 0x10
  cap_ge := by decide
  cap_lt := by decide

/-- TC0, the identity cipher, with the smallest capacity. -/
def tc0 : Platform where
  ibufCap := 32
  blockEncrypt := fun _ b => b
  blockDecrypt := fun _ b => b
  draw := fun _ => blockFrom 0x10
  cap_ge := by decide
  cap_lt := by decide

/-- "TC2.D(k, TC2.E(k, b)) = b for all k, b" (section 2). -/
theorem tc2_inverse : tc2.CipherInverse := by
  intro k b
  refine Vector.ext fun j hj => ?_
  have h : (j + 15 + 1) % 16 = j := by omega
  simp [tc2, tc2E, tc2D, h, BitVec.xor_assoc]

theorem tc0_inverse : tc0.CipherInverse := fun _ _ => rfl

/-- Bytes written into a memory from an index on. -/
def store : Memory → Nat → Bytes → Memory
  | m, _, [] => m
  | m, a, b :: rest => store (Memory.write m a b) (a + 1) rest

/-- A unit with an operand loaded, and a key if one is given. -/
def loaded (k : Option Block) (x : Bytes) : State :=
  { State.reset with
    key := k.getD Block.zero, keyValid := k.isSome, ibuf := store [] 0 x, ilen := BitVec.ofNat 32 x.length }

/-- A unit with a key and a length. -/
def keyedLen (n : Word) : State := { State.reset with keyValid := true, ilen := n }

/-- The envelope of row TC2/KA/IV1/M5 of section 3.7. -/
def envM5 : Bytes :=
  upFrom 0x10 16 ++ [0x76, 0x7d, 0x7d, 0x80, 0x1c, 0x1c, 0x1c, 0x1c, 0x1c, 0x1c, 0x1c, 0x1c, 0x1c, 0x1c, 0x1c, 0x79]

/-- "hello" (section 2). -/
def m5 : Bytes := [0x68, 0x65, 0x6c, 0x6c, 0x6f]

/-! ### Vectors -/

/-- Section 2: TC2.E(KA, `30 31 .. 3f`) = 16 x 31 and TC2.D(K0, 16 x 00) = 16 x ff. -/
theorem test_tc2_samples :
    tc2E (blockFrom 0) (blockFrom 0x30) = Vector.replicate 16 0x31 ∧
    tc2D (Vector.replicate 16 0) (Vector.replicate 16 0) = Vector.replicate 16 0xff := by decide

/-- Section 3.3: Pad(M5), and a whole extra block for M16. -/
theorem test_pad : pad m5 = m5 ++ rep 11 0x0b ∧ pad (upFrom 0x41 16) = upFrom 0x41 16 ++ rep 16 0x10 := by decide

/-- Section 3.4: rows that succeed, and rows that fail for each reason. -/
theorem test_unpad :
    (unpad (rep 16 0x10)).toOption = some [] ∧ (unpad (rep 16 0x05)).toOption = some (rep 11 0x05) ∧
    (unpad (upFrom 0x41 15 ++ [0x00])).toOption = none ∧ (unpad (upFrom 0x41 15 ++ [0x11])).toOption = none ∧
    (unpad (upFrom 0x41 14 ++ [0x03, 0x02])).toOption = none ∧
    (unpad (upFrom 0x41 16 ++ [0x0f] ++ rep 15 0x10)).toOption = none ∧
    (unpad []).toOption = none ∧ (unpad [0x03]).toOption = none := by decide

/-- Section 4.3: ENC of M5 under KA with draw IV1. -/
theorem test_enc_m5 : (encCommand tc2 (loaded (some (blockFrom 0)) m5)).out = envM5 := by decide

/-- Section 4.3: ILEN = 65 with IBUF_CAP = 64 is CapacityError and takes no draw. -/
theorem test_enc_capacity :
    (encCommand tc2 (keyedLen 65)).errCode = 6 ∧ (encCommand tc2 (keyedLen 65)).draws = State.reset.draws := by decide

/-- Section 4.4: DEC of that envelope under KA gives M5. -/
theorem test_dec_m5 : (decCommand tc2 (loaded (some (blockFrom 0)) envM5)).out = m5 := by decide

/-- Section 4.4: under the wrong key KB it ends in PaddingValidationError, and nothing of the plaintext is left. -/
theorem test_dec_wrong_key :
    statusWord (decCommand tc2 (loaded (some (blockFrom 0xa0)) envM5)) = 6 ∧
    (decCommand tc2 (loaded (some (blockFrom 0xa0)) envM5)).errCode = 4 ∧
    (decCommand tc2 (loaded (some (blockFrom 0xa0)) envM5)).out = [] := by decide

/-- Section 4.1: LDKEY of KA from reset, and of 15 bytes over a key. -/
theorem test_ldkey :
    statusWord (ldkeyCommand (loaded none (upFrom 0 16))) = 5 ∧ (ldkeyCommand (loaded none (upFrom 0 16))).key = blockFrom 0 ∧
    statusWord (ldkeyCommand (loaded (some (blockFrom 0)) (upFrom 0 15))) = 2 ∧
    (ldkeyCommand (loaded (some (blockFrom 0)) (upFrom 0 15))).key = Block.zero := by decide

/-- Section 4.2: VENV at 31, 32, 0xFFFFFFF0. -/
theorem test_venv :
    (venvCommand { State.reset with ilen := 31 }).errCode = 3 ∧ statusWord (venvCommand { State.reset with ilen := 32 }) = 1 ∧
    statusWord (venvCommand { State.reset with ilen := 0xFFFFFFF0 }) = 1 := by decide

/-- Sections 4.5 and 5.2: an illegal word through the port, and the CMD register reading 0 after it. -/
theorem test_illegal_word_through_port :
    (match takeEvent tc2 { keyedLen 0 with pending := [wrCmdWord 0x00000103] } with
      | .next t => (statusWord t, t.errCode, regRead .cmd t) | .fault _ => (0, 0, 0) | .refused _ => (0, 0, 0)) = (6, 5, 0) := by
  decide

/-- Section 5.3: accesses that are refused, and one at the edge that is not. -/
theorem test_refused_accesses :
    admitted tc2 (.read .reg .w32 0x14) = false ∧ admitted tc2 (.read .reg .w8 0x04) = false ∧
    admitted tc2 (.write .reg 0x01 (.word 3)) = false ∧ admitted tc2 (.read .ibuf .w32 0) = false ∧
    admitted tc2 (.write .ibuf 64 (.byte 0)) = false ∧ admitted tc2 (.read .obuf .w8 96) = false ∧
    admitted tc2 (.read .obuf .w8 95) = true := by decide

/-- R120: the datapath of DEC on that envelope gives what the command gives. -/
theorem test_dec_datapath :
    decDatapath tc2 (loaded (some (blockFrom 0)) envM5) = decCommand tc2 (loaded (some (blockFrom 0)) envM5) := by decide

/-- R120: the datapath of ENC on M5 gives what the command gives. -/
theorem test_enc_datapath :
    encDatapath tc2 (loaded (some (blockFrom 0)) m5) = encCommand tc2 (loaded (some (blockFrom 0)) m5) := by decide

/-! ### Witnesses: for each statement with hypotheses, values that meet them together, at the boundaries of its clauses -/

/-- A state whose next event is given. -/
def withNext (e : HostEvent) (s : State) : State := { s with pending := [e] }

theorem read_store (m : Memory) (a : Nat) (x : Bytes) (q : Nat) :
    Memory.read (store m a x) q = if a ≤ q ∧ q < a + x.length then x.getD (q - a) 0 else Memory.read m q := by
  induction x generalizing m a with
  | nil => simp [store]
  | cons b rest ih =>
    rw [store, ih, Memory.read_write, List.length_cons]
    rcases lt_trichotomy q a with h | rfl | h
    · rw [if_neg (by omega), if_neg (by omega), if_neg (by omega)]
    · rw [if_neg (by omega), if_pos rfl, if_pos (by omega)]; simp
    · by_cases h' : q < a + (rest.length + 1)
      · rw [if_pos (by omega), if_pos (by omega), show q - a = (q - (a + 1)) + 1 by omega]; simp
      · rw [if_neg (by omega), if_neg (by omega), if_neg (by omega)]

/-- A DEC whose one ciphertext block decrypts to `plain`, whatever the cipher of the modelled unit is: the IV is chosen for it. -/
def decrypting (plain : Block) : State :=
  loaded (some Block.zero) ((xor16 (Config.unit.blockDecrypt Block.zero Block.zero) plain).bytes ++ rep 16 0)

theorem decrypting_last (plain : Block) : lastDecryptedBlock Config.unit (decrypting plain) = plain := by
  have h0 : memReadBlock (decrypting plain).ibuf 0 = xor16 (Config.unit.blockDecrypt Block.zero Block.zero) plain := by
    refine Vector.ext fun j hj => ?_
    simp only [memReadBlock, Vector.getElem_ofFn, decrypting, loaded, read_store]
    rw [if_pos (by simp [rep]; omega), ← blockAt_append_zero (xor16 _ plain) (rep 16 0), blockAt_get _ _ _ hj]
    simp [blockAt_append_zero]
  have h1 : memReadBlock (decrypting plain).ibuf 16 = Block.zero := by
    refine Vector.ext fun j hj => ?_
    simp only [memReadBlock, Vector.getElem_ofFn, decrypting, loaded, read_store]
    rw [if_pos (by simp [rep]; omega), List.getD_eq_getElem?_getD, List.getElem?_append_right (by simp), rep,
      List.getElem?_replicate, Block.zero, Vector.getElem_replicate, if_pos (by simp; omega)]
    rfl
  have hl : (decrypting plain).ilen.toNat = 32 := by simp [decrypting, loaded, rep]
  simp only [lastDecryptedBlock, hl, decryptedBlock]
  rw [h0, h1]
  refine Vector.ext fun j hj => ?_
  simp [decrypting, loaded]

theorem length_fits : (32 : Nat) ≤ Config.unit.ibufCap := Config.unit.cap_ge

theorem length_above (s : State) (h : s.ilen = 0xFFFFFFF0) : Config.unit.ibufCap < s.ilen.toNat := by
  have := Config.unit.cap_lt
  rw [h]; simp; omega

theorem witness_StepRunsIssuedCommand :
    (withNext (wrCmdWord 0x00000004) State.reset).pending = wrCmdWord 0x00000004 :: [] ∧ decode 0x00000004 = .ok .dec :=
  ⟨rfl, by decide⟩

theorem witness_PlacedWordRunsNext : decodeTableWord 32 0x00000001 = some .ldkey := by decide

theorem witness_IllegalWordEndsInIllegalCommandError :
    (withNext (wrCmdWord 0) State.reset).pending = wrCmdWord 0 :: [] ∧
    ∀ w ∈ ([0, 5, 0xFF, 0x100, 0x103, 0x201] : List Word),
      w.toNat ≠ 1 ∧ w.toNat ≠ 2 ∧ w.toNat ≠ 3 ∧ w.toNat ≠ 4 := ⟨rfl, by simp⟩

theorem witness_IdleUnitHoldsItsState : State.reset.pending = [] := rfl

theorem witness_LdkeyLatchesOrClearsTheKey :
    (loaded none (upFrom 0 16)).ilen.toNat = 16 ∧ (loaded none (upFrom 0 15)).ilen.toNat ≠ 16 ∧
    (loaded none (upFrom 0 17)).ilen.toNat ≠ 16 := by decide

theorem witness_VenvJudgesTheLengthAlone :
    (32 ≤ (keyedLen 32).ilen.toNat ∧ (keyedLen 32).ilen.toNat % 16 = 0) ∧
    (∀ n ∈ ([0, 16, 31, 33, 63] : List Word), ¬ (32 ≤ n.toNat ∧ n.toNat % 16 = 0)) := by simp [keyedLen]

/-- The three branches of ENC: no key; a length above any capacity; a key and a length at the capacity itself. -/
theorem witness_EncEncodesTheOperand :
    State.reset.keyValid = false ∧
    ((keyedLen 0xFFFFFFF0).keyValid = true ∧ Config.unit.ibufCap < (keyedLen 0xFFFFFFF0).ilen.toNat) ∧
    ((keyedLen (BitVec.ofNat 32 Config.unit.ibufCap)).keyValid = true ∧
      (keyedLen (BitVec.ofNat 32 Config.unit.ibufCap)).ilen.toNat = Config.unit.ibufCap) := by
  have := Config.unit.cap_lt
  exact ⟨rfl, ⟨rfl, length_above _ rfl⟩, rfl, by simp [keyedLen]; omega⟩

theorem witness_EncOutputSatisfiesTheCbcRecurrence :
    (∀ n ∈ ([0, 15, 16, 32] : List Word), (keyedLen n).keyValid = true ∧ (keyedLen n).ilen.toNat ≤ Config.unit.ibufCap) := by
  intro n hn
  refine ⟨rfl, le_trans ?_ length_fits⟩
  revert n; simp [keyedLen]

/-- DEC past its pre-checks, on a last block of valid padding (all sixteen bytes 0x10, and a single 0x01) and of invalid padding (0x00, 0x11,
and a byte before the last that differs). -/
theorem witness_DecOutputSatisfiesTheCbcRecurrence :
    (∀ b : Block, (decrypting b).keyValid = true ∧ 32 ≤ (decrypting b).ilen.toNat ∧ (decrypting b).ilen.toNat % 16 = 0 ∧
      (decrypting b).ilen.toNat ≤ Config.unit.ibufCap) ∧
    endsInPadding (lastDecryptedBlock Config.unit (decrypting (Vector.replicate 16 0x10))) = true ∧
    endsInPadding (lastDecryptedBlock Config.unit (decrypting (Vector.replicate 16 0x01))) = true ∧
    endsInPadding (lastDecryptedBlock Config.unit (decrypting (Vector.replicate 16 0x00))) = false ∧
    endsInPadding (lastDecryptedBlock Config.unit (decrypting (Vector.replicate 16 0x11))) = false ∧
    endsInPadding (lastDecryptedBlock Config.unit (decrypting (blockFrom 0))) = false := by
  simp only [decrypting_last]
  refine ⟨fun b => ?_, by decide, by decide, by decide, by decide, by decide⟩
  have hl : (decrypting b).ilen.toNat = 32 := by simp [decrypting, loaded, rep]
  rw [hl]
  exact ⟨rfl, le_refl _, rfl, length_fits⟩

/-- The branches of DEC: no key; a length that is no envelope's, below 32 and unaligned; a well-formed length above any capacity. -/
theorem witness_DecDecodesTheOperand :
    State.reset.keyValid = false ∧ (keyedLen 31).ilen.toNat < 32 ∧ (keyedLen 33).ilen.toNat % 16 ≠ 0 ∧
    ¬ ((keyedLen 0xFFFFFFF0).ilen.toNat < 32 ∨ (keyedLen 0xFFFFFFF0).ilen.toNat % 16 ≠ 0) ∧
    Config.unit.ibufCap < (keyedLen 0xFFFFFFF0).ilen.toNat :=
  ⟨rfl, by decide, by decide, by simp [keyedLen], length_above _ rfl⟩

theorem witness_CommandsLeaveTheRestUnchanged : ∀ i : Instr, ∃ t, exec i (keyedLen 32) = .next t := by
  intro i; cases i <;> exact ⟨_, rfl⟩

/-- Two states that differ in OUT, OK, ERR, ERRCODE and a byte of IBUF above the operand. -/
theorem witness_CommandOutcomeDependsOnOperandAndKeyOnly :
    let s := keyedLen 32
    let s' := { s with out := [1], ok := true, errCode := 3, ibuf := [(32, 0x55)] }
    s'.ilen = s.ilen ∧ (∀ a, a < s.ilen.toNat → a < Config.unit.ibufCap → Memory.read s'.ibuf a = Memory.read s.ibuf a) ∧
    s'.key = s.key ∧ s'.keyValid = s.keyValid ∧ Config.unit.draw s'.draws = Config.unit.draw s.draws ∧
    ∃ t, exec .dec s = .next t := by
  refine ⟨rfl, fun a ha _ => ?_, rfl, rfl, rfl, _, rfl⟩
  have : (32 : Nat) ≠ a := by simp [keyedLen] at ha; omega
  simp [Memory.read_cons, this, keyedLen, State.reset]

/-- Each branch of the priority order: an illegal word with everything else wrong too, then each later error with none before it. -/
theorem witness_FirstErrorInPriorityOrderIsReported :
    (∀ w ∈ ([0, 5, 7, 0x103] : List Word), w ≠ 1 ∧ w ≠ 2 ∧ w ≠ 3 ∧ w ≠ 4) ∧
    (keyedLen 31).ilen.toNat ≠ 16 ∧ State.reset.keyValid = false ∧
    ((keyedLen 31).keyValid = true ∧ (keyedLen 31).ilen.toNat < 32) ∧
    ((keyedLen 0xFFFFFFF0).ilen.toNat % 16 = 0 ∧ Config.unit.ibufCap < (keyedLen 0xFFFFFFF0).ilen.toNat) ∧
    endsInPadding (lastDecryptedBlock Config.unit (decrypting (Vector.replicate 16 0x00))) = false ∧
    endsInPadding (lastDecryptedBlock Config.unit (decrypting (Vector.replicate 16 0x10))) = true := by
  simp only [decrypting_last]
  exact ⟨by simp, by decide, rfl, ⟨rfl, by decide⟩, ⟨by simp [keyedLen], length_above _ rfl⟩, by decide, by decide⟩

theorem witness_OnlyASuccessfulEncTakesOneDraw :
    (∃ t, step (withNext (wrCmdWord 3) (keyedLen 32)) = .next t) ∧ NextIsCommand (withNext (wrCmdWord 3) (keyedLen 32)) 3 ∧
    (keyedLen 32).keyValid = true ∧ (keyedLen 32).ilen.toNat ≤ Config.unit.ibufCap ∧
    (∃ t, step (withNext (wrCmdWord 3) State.reset) = .next t) ∧ (withNext (wrCmdWord 3) State.reset).keyValid = false :=
  ⟨⟨_, rfl⟩, ⟨[], rfl⟩, rfl, length_fits, ⟨_, rfl⟩, rfl⟩

theorem witness_SuccessCompletionSetsTheOutcomeOnly :
    ([] : Bytes).length ≤ Config.unit.obufCap ∧ (rep Config.unit.obufCap 0xff).length = Config.unit.obufCap :=
  ⟨Nat.zero_le _, by simp [rep]⟩

theorem witness_ResetClearsTheUnit :
    NextIsReset (withNext .reset (keyedLen 32)) ∧
    (∃ t, step (withNext (wrCmdWord 1) (keyedLen 15)) = .next t ∧ (keyedLen 15).keyValid = true ∧ t.keyValid = false) ∧
    (∃ t, step (withNext .reset { State.reset with ok := true }) = .next t ∧ t.ok = false ∧ t.err = false) :=
  ⟨⟨[], rfl⟩, ⟨_, rfl, rfl, rfl⟩, ⟨_, rfl, rfl, rfl⟩⟩

theorem witness_ResetKeepsWhatIsOutsideTheUnit : (withNext .reset (keyedLen 32)).pending = .reset :: [] := rfl

theorem witness_KeyChangesOnlyByLdkeyOrReset :
    (∃ t, step (withNext (wrCmdWord 1) (keyedLen 15)) = .next t ∧ t.keyValid ≠ (keyedLen 15).keyValid) ∧
    (∃ t, step (withNext .reset (keyedLen 15)) = .next t ∧ t.keyValid ≠ (keyedLen 15).keyValid) :=
  ⟨⟨_, rfl, by decide⟩, ⟨_, rfl, by decide⟩⟩

theorem witness_OperandChangesOnlyByHostWritesOrReset :
    (∃ t, step (withNext (wbIbuf 0 7) State.reset) = .next t ∧ ¬ NextIsReset (withNext (wbIbuf 0 7) State.reset) ∧
      Memory.read t.ibuf 0 ≠ Memory.read State.reset.ibuf 0) ∧
    (∃ t, step (withNext (wrIlen 5) State.reset) = .next t ∧ ¬ NextIsReset (withNext (wrIlen 5) State.reset) ∧
      t.ilen ≠ State.reset.ilen) := by
  have h : (0 : Nat) < Config.unit.ibufCap := lt_of_lt_of_le (by omega) length_fits
  refine ⟨⟨_, by simp only [step, takeEvent, withNext, hostEvent, wbIbuf, access, if_pos h]; rfl, ?_, by decide⟩,
    ⟨_, rfl, ?_, by decide⟩⟩ <;> rintro ⟨r, hr⟩ <;> cases hr

theorem witness_OutcomeChangesOnlyByCommandOrReset :
    (∃ t, step (withNext (wrCmdWord 2) State.reset) = .next t ∧ t.err ≠ State.reset.err) ∧
    NextIsCommand (withNext (wrCmdWord 2) State.reset) 2 :=
  ⟨⟨_, rfl, by decide⟩, ⟨[], rfl⟩⟩

theorem witness_StatusReadsOneOfSixValues : Reachable { State.reset with draws := 0 } := .start 0

theorem witness_RegisterReadsReturnAndChangeNothing :
    ∀ off ∈ [0x00, 0x04, 0x08, 0x0C, 0x10],
      (withNext (.access (.read .reg .w32 off)) (keyedLen 7)).pending = .access (.read .reg .w32 off) :: [] ∧
      (off = 0x00 ∨ off = 0x04 ∨ off = 0x08 ∨ off = 0x0C ∨ off = 0x10) := by
  intro off h; exact ⟨rfl, by simpa using h⟩

theorem witness_RegisterWritesIssueStoreOrAreIgnored :
    ∀ off ∈ [0x00, 0x04, 0x08, 0x0C, 0x10],
      (withNext (.access (.write .reg off (.word 0xDEADBEEF))) State.reset).pending =
        .access (.write .reg off (.word 0xDEADBEEF)) :: [] := fun _ _ => rfl

theorem witness_IbufAccessesReadAndWriteOneByte :
    (0 < Config.unit.ibufCap ∧ Config.unit.ibufCap - 1 < Config.unit.ibufCap) ∧
    (withNext (.access (.read .ibuf .w8 (Config.unit.ibufCap - 1))) State.reset).pending =
      .access (.read .ibuf .w8 (Config.unit.ibufCap - 1)) :: [] ∧
    (withNext (.access (.write .ibuf 0 (.byte 0x7f))) State.reset).pending = .access (.write .ibuf 0 (.byte 0x7f)) :: [] := by
  have := length_fits
  exact ⟨by omega, rfl, rfl⟩

/-- With a result of one byte, index 0 lies below |OUT|, index 1 at it, and the last index at the end of the space. -/
theorem witness_ObufReadsTheResultAndIgnoresWrites :
    let s := { State.reset with out := [0x2a] }
    (0 < Config.unit.obufCap ∧ 1 < Config.unit.obufCap ∧ Config.unit.obufCap - 1 < Config.unit.obufCap) ∧
    0 < s.out.length ∧ s.out.length ≤ 1 ∧ (withNext (rbObuf 1) s).pending = .access (.read .obuf .w8 1) :: [] ∧
    (withNext (.access (.write .obuf 0 (.byte 0))) s).pending = .access (.write .obuf 0 (.byte 0)) :: [] := by
  have := length_fits
  exact ⟨by simp only [Platform.obufCap]; omega, by decide, by decide, rfl, rfl⟩

/-- An access of each kind at the edge: the last index performed, the next refused, and a register offset that is none. -/
theorem witness_ExactlyTheListedAccessesArePerformed :
    (withNext (.access (.read .ibuf .w8 Config.unit.ibufCap)) State.reset).pending =
      .access (.read .ibuf .w8 Config.unit.ibufCap) :: [] ∧
    admitted Config.unit (.read .ibuf .w8 (Config.unit.ibufCap - 1)) = true ∧
    admitted Config.unit (.read .ibuf .w8 Config.unit.ibufCap) = false ∧
    admitted Config.unit (.write .reg 0x14 (.word 0)) = false ∧ admitted Config.unit (.write .reg 0x10 (.word 0)) = true := by
  have := length_fits
  exact ⟨rfl, by simp [admitted]; omega, by simp [admitted], by decide, by decide⟩

theorem witness_StepKeepsTheInvariant : Inv Config.unit State.reset ∧ ∃ t, step State.reset = .next t :=
  ⟨{ notBoth := by decide, codeWithErr := by decide, errEmpty := by decide, noKeyZero := fun _ => rfl,
     outFits := Nat.zero_le _, codeProduced := .inl rfl, outShape := .inl rfl, ibufWf := rfl,
     ibufFits := fun _ h => (nomatch h), workZero := rfl }, _, rfl⟩

theorem witness_ReachableStatesKeepTheStateRules :
    Reachable { State.reset with draws := 3, pending := [wrCmd .venv, .reset] } := .host _ (.start 3)

theorem witness_OnlyEncAndDecRevealTheKey :
    ¬ NextIsCommand (withNext (wrCmdWord 1) (keyedLen 16)) 3 ∧ ¬ NextIsCommand (withNext (wrCmdWord 1) (keyedLen 16)) 4 := by
  constructor <;> rintro ⟨r, hr⟩ <;> simp [withNext, wrCmdWord] at hr

theorem witness_CbcEncChainsOnThePreviousCiphertext :
    (rep 32 0x10).length % 16 = 0 ∧ 0 < (rep 32 0x10).length / 16 ∧ 1 < (rep 32 0x10).length / 16 ∧
    ([] : Bytes).length % 16 = 0 := by decide

theorem witness_CbcDecChainsOnTheReceivedCiphertext :
    (rep 32 0x10).length % 16 = 0 ∧ 0 < (rep 32 0x10).length / 16 ∧ 1 < (rep 32 0x10).length / 16 := by decide

theorem witness_CbcDecUndoesCbcEnc :
    tc2.CipherInverse ∧ (rep 32 0x10).length % 16 = 0 ∧
    ∀ h, (cbcEnc tc2.blockEncrypt (blockFrom 0) (blockFrom 0x10) (rep 32 0x10) h).length % 16 = 0 :=
  ⟨tc2_inverse, by decide, fun h => by rw [cbcEnc_length]; exact h⟩

theorem witness_SplitUndoesFrame : 16 ≤ (frame (blockFrom 0) []).length ∧ 16 ≤ envM5.length := by decide

theorem witness_DecodeUndoesEncode : tc2.CipherInverse ∧ tc0.CipherInverse := ⟨tc2_inverse, tc0_inverse⟩

/-- The round trip at the boundary: the longest operand whose envelope fits back, 47 of 64 bytes, and the empty one. -/
theorem witness_EncCopybackDecReturnsTheOperand :
    tc2.CipherInverse ∧ (keyedLen 47).keyValid = true ∧ 16 + 16 * ((keyedLen 47).ilen.toNat / 16 + 1) ≤ tc2.ibufCap ∧
    16 + 16 * ((keyedLen 0).ilen.toNat / 16 + 1) ≤ tc0.ibufCap := ⟨tc2_inverse, rfl, by decide, by decide⟩

theorem witness_EncDatapathRefinesEnc :
    (keyedLen 64).keyValid = true ∧ (keyedLen 64).ilen.toNat ≤ tc2.ibufCap ∧ (keyedLen 0).ilen.toNat ≤ tc2.ibufCap := by decide

theorem witness_DecDatapathRefinesDec :
    (keyedLen 64).keyValid = true ∧ 32 ≤ (keyedLen 64).ilen.toNat ∧ (keyedLen 64).ilen.toNat % 16 = 0 ∧
    (keyedLen 64).ilen.toNat ≤ tc2.ibufCap := by decide

theorem witness_TamperingBeforeTheLastTwoBlocksIsUndetected :
    let e := rep 48 0x10
    let e' := rep 16 0x20 ++ rep 32 0x10
    48 ≤ e.length ∧ e.length % 16 = 0 ∧ e'.length = e.length ∧ e'.drop (e.length - 32) = e.drop (e.length - 32) := by
  decide

end Sys2Proof.Machine.Tests
end

section
/-! PROOFS. What the register and OBUF views read, from the fields they show (10_state.md R25, R26, R27), and the reset state (R40). -/

namespace Sys2Proof.Machine

/-- R26: bit 0 of STATUS is OK, bit 1 is ERR, bit 2 is KEYVALID, and the rest is zero. -/
theorem statusWord_toNat (s : State) :
    (statusWord s).toNat = s.ok.toNat + 2 * s.err.toNat + 4 * s.keyValid.toNat := by
  unfold statusWord
  cases s.ok <;> cases s.err <;> cases s.keyValid <;> rfl

/-- R27. -/
@[simp] theorem errcodeWord_toNat (s : State) : (errcodeWord s).toNat = s.errCode.toNat := by
  rw [errcodeWord, BitVec.toNat_setWidth_of_le (by decide)]

/-- R25: the empty result reads as length 0. -/
theorem olenWord_of_out_nil {s : State} (h : s.out = []) : olenWord s = 0 := by
  rw [olenWord, h]; rfl

/-- R25: bytes of an earlier result are not readable once OUT is empty. -/
theorem readObuf_of_out_nil {s : State} (h : s.out = []) (a : Nat) : readObuf a s = 0 := by
  rw [readObuf, h, List.getD_nil]

/-- R40: at reset every register of R36 reads 0, each for the fields it shows. -/
theorem regRead_reset (r : Reg) : regRead r State.reset = 0 := by
  cases r with
  | cmd => rfl
  | status => exact BitVec.eq_of_toNat_eq (statusWord_toNat State.reset)
  | errcode => exact BitVec.eq_of_toNat_eq (errcodeWord_toNat State.reset)
  | ilen => rfl
  | olen => exact olenWord_of_out_nil rfl

/-- Settles O22: the fields are the definition's, IBUF lists no byte, and the views read 0 of those fields. -/
theorem resetStateIsAllZero : Obligations.ResetStateIsAllZero :=
  ⟨rfl, rfl, Memory.read_nil, rfl, rfl, rfl, rfl, rfl, rfl, regRead_reset, readObuf_of_out_nil rfl⟩

end Sys2Proof.Machine
end

section
/-! PROOFS. The port: what each admitted access does, that the rest is refused, and the statements about host accesses
(20_memory.md R54 to R58). -/

namespace Sys2Proof.Machine

/-- A step with an access next at the port is that access, the event taken. -/
theorem step_of_access {s : State} {rest : List HostEvent} {a : Access} (h : s.pending = .access a :: rest) :
    step s = access Config.unit a { s with pending := rest } := by
  rw [step, takeEvent, h]; rfl

/-- R51: the five offsets are those of the five registers. -/
theorem exists_eq_offset_iff {off : Nat} :
    (∃ r : Reg, off = r.offset) ↔ off = 0x00 ∨ off = 0x04 ∨ off = 0x08 ∨ off = 0x0C ∨ off = 0x10 := by
  constructor
  · rintro ⟨r, rfl⟩
    cases r <;> simp [Reg.offset]
  · rintro (rfl | rfl | rfl | rfl | rfl)
    exacts [⟨.cmd, rfl⟩, ⟨.status, rfl⟩, ⟨.errcode, rfl⟩, ⟨.ilen, rfl⟩, ⟨.olen, rfl⟩]

@[simp] theorem regAt_offset (r : Reg) : regAt r.offset = some r := regAt_eq_some.mpr rfl

/-- No two registers share an offset (R51). -/
theorem Reg.offset_injective : Function.Injective Reg.offset := fun r _ h =>
  Option.some_inj.mp ((regAt_offset r).symm.trans (regAt_eq_some.mpr h))

/-! What each admitted access does, one equation per line of the table of R54. -/

theorem access_readReg (P : Platform) (r : Reg) (s : State) :
    access P (.read .reg .w32 r.offset) s = .next (respond (.word (regRead r s)) s) := by
  simp [access]

theorem access_writeReg (P : Platform) (r : Reg) (v : Word) (s : State) :
    access P (.write .reg r.offset (.word v)) s = writeReg r v s := by
  simp [access]

theorem access_readIbuf {P : Platform} {i : Nat} (h : i < P.ibufCap) (s : State) :
    access P (.read .ibuf .w8 i) s = .next (respond (.byte (Memory.read s.ibuf i)) s) := if_pos h

theorem access_writeIbuf {P : Platform} {i : Nat} (h : i < P.ibufCap) (b : Byte) (s : State) :
    access P (.write .ibuf i (.byte b)) s = .next (respond .done (writeIbuf i b s)) := if_pos h

theorem access_readObuf {P : Platform} {i : Nat} (h : i < P.obufCap) (s : State) :
    access P (.read .obuf .w8 i) s = .next (respond (.byte (readObuf i s)) s) := if_pos h

theorem access_writeObuf {P : Platform} {i : Nat} (h : i < P.obufCap) (b : Byte) (s : State) :
    access P (.write .obuf i (.byte b)) s = .next (respond .done s) := if_pos h

/-- OBUF at an index inside the result (R53). -/
theorem readObuf_of_lt {s : State} {a : Nat} (h : a < s.out.length) : readObuf a s = s.out[a] :=
  List.getD_eq_getElem _ _ h

/-- OBUF at an index beyond the result (R53). -/
theorem readObuf_of_le {s : State} {a : Nat} (h : s.out.length ≤ a) : readObuf a s = 0 :=
  List.getD_eq_default _ _ h

/-- A command, or an illegal word, touches neither the host's events nor the port's answer. -/
theorem issue_next_port (w : Word) (s : State) :
    ∃ t, issue w s = .next t ∧ t.pending = s.pending ∧ t.answer = s.answer := by
  rcases issue_cases w s with ⟨i, -, hi⟩ | ⟨e, -, hi⟩ <;> rw [hi]
  · rcases exec_cases i s with ⟨-, -, e⟩ | ⟨-, -, e⟩ | ⟨-, e⟩ | ⟨-, e⟩ | ⟨-, -, e⟩ | ⟨-, -, -, e⟩ | ⟨-, e⟩ |
      ⟨-, -, -, e⟩ | ⟨-, -, m, -, e⟩ <;> exact ⟨_, e, rfl, rfl⟩
  · exact ⟨_, rfl, rfl, rfl⟩

/-- R56: a write to any register is performed and answered so. -/
theorem writeReg_done (r : Reg) (v : Word) (s : State) :
    ∃ t, writeReg r v s = .next t ∧ t.pending = s.pending ∧ t.answer = .done := by
  cases r with
  | cmd => exact issue_next_port v (respond .done s)
  | status | errcode | ilen | olen => exact ⟨_, rfl, rfl, rfl⟩

/-- `admitted` is the table of R54: the six accesses, each with its width and its bound. -/
theorem admitted_iff (P : Platform) (a : Access) :
    admitted P a = true ↔
      (∃ off, (off = 0x00 ∨ off = 0x04 ∨ off = 0x08 ∨ off = 0x0C ∨ off = 0x10) ∧
        (a = .read .reg .w32 off ∨ ∃ v, a = .write .reg off (.word v))) ∨
      (∃ i, i < P.ibufCap ∧ (a = .read .ibuf .w8 i ∨ ∃ b, a = .write .ibuf i (.byte b))) ∨
      (∃ i, i < P.obufCap ∧ (a = .read .obuf .w8 i ∨ ∃ b, a = .write .obuf i (.byte b))) := by
  cases a with
  | read sp w addr =>
    cases sp <;> simp [admitted, Option.isSome_iff_exists, regAt_eq_some, exists_eq_offset_iff, and_comm]
  | write sp addr v =>
    cases sp <;> cases v <;> simp [admitted, Data.width, Option.isSome_iff_exists, regAt_eq_some, exists_eq_offset_iff, and_comm]

/-- R54: an access of the table is performed: it is not answered refused, and it takes no further event. -/
theorem access_of_admitted {P : Platform} {a : Access} (h : admitted P a = true) (s : State) :
    ∃ t, access P a s = .next t ∧ t.pending = s.pending ∧ t.answer ≠ .refused := by
  rcases (admitted_iff P a).mp h with ⟨off, hoff, ha⟩ | ⟨i, hi, rfl | ⟨b, rfl⟩⟩ | ⟨i, hi, rfl | ⟨b, rfl⟩⟩
  · obtain ⟨r, rfl⟩ := exists_eq_offset_iff.mpr hoff
    obtain rfl | ⟨v, rfl⟩ := ha
    · exact ⟨_, access_readReg P r s, rfl, nofun⟩
    · obtain ⟨t, ht, hp, ha⟩ := writeReg_done r v s
      exact ⟨t, (access_writeReg P r v s).trans ht, hp, by simp [ha]⟩
  · exact ⟨_, access_readIbuf hi s, rfl, nofun⟩
  · exact ⟨_, access_writeIbuf hi b s, rfl, nofun⟩
  · exact ⟨_, access_readObuf hi s, rfl, nofun⟩
  · exact ⟨_, access_writeObuf hi b s, rfl, nofun⟩

/-- R54: every other access is refused. -/
theorem access_of_not_admitted {P : Platform} {a : Access} (h : ¬ admitted P a = true) (s : State) :
    access P a s = refuseAccess s := by
  unfold access
  split
  · split
    · next hr => simp [admitted, hr] at h
    · rfl
  · split
    · next hr => simp [admitted, Data.width, hr] at h
    · rfl
  · exact if_neg fun hi => h (by simp [admitted, hi])
  · exact if_neg fun hi => h (by simp [admitted, Data.width, hi])
  · exact if_neg fun hi => h (by simp [admitted, hi])
  · exact if_neg fun hi => h (by simp [admitted, Data.width, hi])
  · rfl
  · rfl

/-- Settles O29: the access is the read of the register at that offset, and each register shows the value R55 names. -/
theorem registerReadsReturnAndChangeNothing : Obligations.RegisterReadsReturnAndChangeNothing := by
  intro s rest off h hoff
  obtain ⟨r, rfl⟩ := exists_eq_offset_iff.mpr hoff
  refine ⟨regRead r { s with pending := rest }, (step_of_access h).trans (access_readReg _ r _),
    fun hr => ?cmd, fun hr => ?status, fun hr => ?errcode, fun hr => ?ilen, fun hr => ?olen⟩
  case cmd => obtain rfl : r = .cmd := Reg.offset_injective hr; rfl
  case status => obtain rfl : r = .status := Reg.offset_injective hr; exact statusWord_toNat _
  case errcode => obtain rfl : r = .errcode := Reg.offset_injective hr; exact errcodeWord_toNat _
  case ilen => obtain rfl : r = .ilen := Reg.offset_injective hr; rfl
  case olen => obtain rfl : r = .olen := Reg.offset_injective hr; rfl

/-- Settles O31: the buffer after a byte write is `Memory.write`, whose reads are `Memory.read_write`. -/
theorem ibufAccessesReadAndWriteOneByte : Obligations.IbufAccessesReadAndWriteOneByte := by
  intro s rest a ha
  refine ⟨fun h => (step_of_access h).trans (access_readIbuf ha _), fun b h => ?_⟩
  exact ⟨Memory.write s.ibuf a b, (step_of_access h).trans (access_writeIbuf ha b _),
    Memory.read_write_same _ _ _, fun a' hne => Memory.read_write_other _ b hne⟩

/-- Settles O33: an admitted access is performed, any other refused, and `admitted` is the table. -/
theorem exactlyTheListedAccessesArePerformed : Obligations.ExactlyTheListedAccessesArePerformed := by
  intro s rest a h
  have htable := not_congr (admitted_iff Config.unit a)
  by_cases hadm : admitted Config.unit a = true
  · obtain ⟨t, ht, hp, hans⟩ := access_of_admitted hadm { s with pending := rest }
    exact ⟨t, (step_of_access h).trans ht, hp,
      ⟨fun hr => absurd hr hans, fun hno => absurd hadm (htable.mpr hno)⟩, fun hr => absurd hr hans⟩
  · exact ⟨_, (step_of_access h).trans (access_of_not_admitted hadm _), rfl,
      ⟨fun _ => htable.mp hadm, fun _ => rfl⟩, fun _ => rfl⟩

/-- Settles O30: the access is the register's `writeReg`, whose branch each offset picks. -/
theorem registerWritesIssueStoreOrAreIgnored : Obligations.RegisterWritesIssueStoreOrAreIgnored := by
  intro s rest off v h
  have hstep (r : Reg) (hr : off = r.offset) : step s = writeReg r v { s with pending := rest } := by
    rw [step_of_access h, hr, access_writeReg]
  refine ⟨hstep .cmd, hstep .ilen, ?_⟩
  rintro (hr | hr | hr)
  exacts [hstep .status hr, hstep .errcode hr, hstep .olen hr]

/-- Settles O32: the byte read is `readObuf`, on both sides of the result's length. -/
theorem obufReadsTheResultAndIgnoresWrites : Obligations.ObufReadsTheResultAndIgnoresWrites := by
  intro s rest a ha
  exact ⟨fun h => ⟨readObuf a s, (step_of_access h).trans (access_readObuf ha _), readObuf_of_lt, readObuf_of_le⟩,
    fun b h => (step_of_access h).trans (access_writeObuf ha b _)⟩

end Sys2Proof.Machine
end

section
/-! PROOFS. The decoder: the two fields are the whole word, and Decode answers a command on exactly that command's word
(30_encoding.md R80, R82, R84). -/

namespace Sys2Proof

/-- R80: RSV and OP together are the whole word. -/
@[simp] theorem fieldsWord_wordFields (w : Word) : fieldsWord (wordFields w) = w :=
  (BitVec.extractLsb'_append_extractLsb'_eq_extractLsb' rfl).trans BitVec.extractLsb'_eq_self

/-- R82: every command's word has exactly the command's fields. -/
@[simp] theorem wordFields_encode (i : Instr) : wordFields (encode i) = fieldsOf i := by
  cases i with
  | ldkey => exact Laws.EncodingFields.ldkey.2
  | venv => exact Laws.EncodingFields.venv.2
  | enc => exact Laws.EncodingFields.enc.2
  | dec => exact Laws.EncodingFields.dec.2

/-- A word is a command's word exactly when its fields are that command's. -/
theorem wordFields_eq_fieldsOf_iff {w : Word} {i : Instr} : wordFields w = fieldsOf i ↔ w = encode i :=
  ⟨fun h => by rw [encode, ← h, fieldsWord_wordFields], fun h => by rw [h, wordFields_encode]⟩

/-- Each accepting branch of the decoder takes the fields of one command and no others. -/
theorem decodeFields_eq_ok_iff {c : CommandWord} {i : Instr} : decodeFields c = .ok i ↔ c = fieldsOf i := by
  constructor
  · intro h
    unfold decodeFields at h
    split_ifs at h with hrsv hop hop hop hop <;> cases h
    all_goals exact congrArg₂ CommandWord.mk (not_not.mp hrsv) hop
  · rintro rfl
    cases i <;> rfl

/-- R82, R84: Decode answers a command on that command's word and on no other. -/
theorem decode_eq_ok_iff {w : Word} {i : Instr} : decode w = .ok i ↔ w = encode i :=
  decodeFields_eq_ok_iff.trans wordFields_eq_fieldsOf_iff

/-- R82: the command words as numbers. -/
theorem eq_encode_iff {w : Word} {i : Instr} :
    w = encode i ↔
      (w.toNat = 1 ∧ i = .ldkey) ∨ (w.toNat = 2 ∧ i = .venv) ∨ (w.toNat = 3 ∧ i = .enc) ∨ (w.toNat = 4 ∧ i = .dec) := by
  rw [← BitVec.toNat_inj]
  cases i <;> simp [encode, fieldsWord, fieldsOf]

/-- R84: Decode is total, so a word is illegal exactly when it is no command's word. -/
theorem decode_error_iff {w : Word} : (∃ e, decode w = .error e) ↔ ∀ i, w ≠ encode i := by
  simp only [ne_eq, ← decode_eq_ok_iff]
  cases decode w <;> simp

/-- R82: the words that are no command's, as numbers. -/
theorem forall_ne_encode_iff {w : Word} :
    (∀ i, w ≠ encode i) ↔ w.toNat ≠ 1 ∧ w.toNat ≠ 2 ∧ w.toNat ≠ 3 ∧ w.toNat ≠ 4 := by
  simp only [ne_eq, eq_encode_iff, not_or, not_and, forall_and]
  simp [imp_not_comm]

/-- Settles O2: Decode answers exactly the four command words, and the illegal rest is what their two fields exclude. -/
theorem exactlyFourWordsAreCommands : Obligations.ExactlyFourWordsAreCommands := fun w =>
  ⟨fun _ => decode_eq_ok_iff.trans eq_encode_iff, decode_error_iff.trans (forall_ne_encode_iff.trans (by omega))⟩

end Sys2Proof
end

section
/-! PROOFS. A write to REG.CMD issues its word, an illegal word raises IllegalCommandError (30_encoding.md R83, R85; 60_exceptions.md
R165), and the host's view after success completion (30_encoding.md R87). -/

namespace Sys2Proof.Machine

/-- R83: a step with a write to REG.CMD next at the port is the issue of the word, the event taken and the write answered. -/
theorem step_of_wrCmdWord {s : State} {rest : List HostEvent} {w : Word} (h : s.pending = wrCmdWord w :: rest) :
    step s = issue w (respond .done { s with pending := rest }) :=
  (step_of_access h).trans (access_writeReg _ .cmd w _)

/-- R165: issue of an illegal word is the one error completion, whichever name the decoder gives it. -/
theorem issue_of_error {w : Word} (h : ∃ e, decode w = .error e) (s : State) :
    issue w s = .next (raise .illegalCommand s) := by
  obtain ⟨e, he⟩ := h
  rw [issue, he]

/-- Settles O6: a word other than the four is illegal, and its issue is `raise` and nothing more. -/
theorem illegalWordEndsInIllegalCommandError : Obligations.IllegalWordEndsInIllegalCommandError := by
  intro s rest w h h1 h2 h3 h4
  rw [step_of_wrCmdWord h, issue_of_error (decode_error_iff.mpr (forall_ne_encode_iff.mpr ⟨h1, h2, h3, h4⟩))]
  rfl

/-- R6: the output buffer's size fits a register. -/
theorem obufCap_lt (P : Platform) : P.obufCap < 2 ^ 32 := P.cap_lt

/-- R25: OLEN shows the length of a result that fits a register. -/
theorem olenWord_toNat {s : State} (h : s.out.length < 2 ^ 32) : (olenWord s).toNat = s.out.length := by
  rw [olenWord, BitVec.toNat_ofNat, Nat.mod_eq_of_lt h]

/-- Settles O21: the views read the fields that `complete` sets, and a result within OBUF_CAP has a 32-bit length. -/
theorem successCompletionSetsTheOutcomeOnly : Obligations.SuccessCompletionSetsTheOutcomeOnly := by
  intro out s hout
  refine ⟨rfl, ?status, ?errcode, ?olen⟩
  case status => simp [statusWord_toNat]
  case errcode => exact BitVec.eq_of_toNat_eq (errcodeWord_toNat _)
  case olen => exact olenWord_toNat (lt_of_le_of_lt hout (obufCap_lt _))

end Sys2Proof.Machine
end

section
/-! PROOFS. The chaining controller: the laws of xor16 (40_datapath_functions.md R101), and block `i` of CbcEnc and of CbcDec
(R108, R109). -/

namespace Sys2Proof.Machine

/-- R101, first law. -/
theorem xor16_comm (a b : Block) : xor16 a b = xor16 b a := by
  refine Vector.ext fun j hj => ?_
  rw [xor16_get _ _ _ hj, xor16_get _ _ _ hj, BitVec.xor_comm]

/-- R101, second law. -/
@[simp] theorem xor16_xor16_cancel_right (a b : Block) : xor16 (xor16 a b) b = a := by
  refine Vector.ext fun j hj => ?_
  rw [xor16_get _ _ _ hj, xor16_get _ _ _ hj, BitVec.xor_assoc, BitVec.xor_self, BitVec.xor_zero]

/-- R101, third law. -/
@[simp] theorem xor16_zero (a : Block) : xor16 a Block.zero = a := by
  refine Vector.ext fun j hj => ?_
  rw [xor16_get _ _ _ hj, Block.zero, Vector.getElem_replicate, BitVec.xor_zero]

/-- Settles O38: each law holds because the exclusive or of bytes has it. -/
theorem xor16IsBytewiseWithItsLaws : Obligations.Xor16IsBytewiseWithItsLaws := fun a b =>
  ⟨fun j => xor16_get a b j j.isLt, xor16_comm a b, xor16_xor16_cancel_right a b, xor16_zero a⟩

/-- R108: block `i` of CbcEnc's output is the `i`-th encrypted block. -/
theorem blockAt_cbcEnc (encrypt : Block → Block → Block) (k iv : Block) (x : Bytes) (h : x.length % 16 = 0) {i : Nat}
    (hi : i < (cbcEncBlocks encrypt k iv (blocks x h)).length) :
    blockAt (cbcEnc encrypt k iv x h) i = (cbcEncBlocks encrypt k iv (blocks x h))[i] :=
  blockAt_joinBlocks _ i hi

/-- R109: block `i` of CbcDec's output is the `i`-th decrypted block. -/
theorem blockAt_cbcDec (decrypt : Block → Block → Block) (k iv : Block) (c : Bytes) (h : c.length % 16 = 0) {i : Nat}
    (hi : i < (cbcDecBlocks decrypt k iv (blocks c h)).length) :
    blockAt (cbcDec decrypt k iv c h) i = (cbcDecBlocks decrypt k iv (blocks c h))[i] :=
  blockAt_joinBlocks _ i hi

/-- Settles O43: the recurrence of the encrypted blocks, read off the joined output; the first block chains on the IV. -/
theorem cbcEncChainsOnThePreviousCiphertext : Obligations.CbcEncChainsOnThePreviousCiphertext := by
  intro encrypt k iv x h
  refine ⟨cbcEnc_length encrypt k iv x h, fun i hi => ?_⟩
  have hp : i < (blocks x h).length := by rwa [blocks_length]
  have hc : i < (cbcEncBlocks encrypt k iv (blocks x h)).length := by rwa [cbcEncBlocks_length]
  rw [blockAt_cbcEnc _ _ _ _ _ hc, cbcEncBlocks_getElem _ _ _ _ _ hc hp, blocks_getElem]
  cases i with
  | zero => rfl
  | succ i => rw [if_neg i.succ_ne_zero, if_neg i.succ_ne_zero, blockAt_cbcEnc _ _ _ _ _ (by omega)]

/-- Settles O44: the recurrence of the decrypted blocks, read off the joined output; the first block chains on the IV. -/
theorem cbcDecChainsOnTheReceivedCiphertext : Obligations.CbcDecChainsOnTheReceivedCiphertext := by
  intro decrypt k iv c h
  refine ⟨cbcDec_length decrypt k iv c h, fun i hi => ?_⟩
  have hc : i < (blocks c h).length := by rwa [blocks_length]
  have hp : i < (cbcDecBlocks decrypt k iv (blocks c h)).length := by rwa [cbcDecBlocks_length]
  rw [blockAt_cbcDec _ _ _ _ _ hp, cbcDecBlocks_getElem _ _ _ _ _ hp hc, blocks_getElem]
  cases i with
  | zero => rfl
  | succ i => rw [if_neg i.succ_ne_zero, if_neg i.succ_ne_zero, blocks_getElem]

end Sys2Proof.Machine
end

section
/-! PROOFS. The padding unit: PadLen and the padding byte (40_datapath_functions.md R103), what Pad appends (R104, R105), and the
strings Unpad accepts (R106). -/

namespace Sys2Proof.Machine

/-- R103: PadLen is never 0. -/
theorem padLen_pos (n : Nat) : 1 ≤ padLen n := by rw [padLen]; omega

/-- R103. -/
theorem padLen_le (n : Nat) : padLen n ≤ 16 := Nat.sub_le _ _

/-- R103: a whole number of blocks gets a whole block of padding. -/
theorem padLen_of_mod_eq_zero {n : Nat} (h : n % 16 = 0) : padLen n = 16 := by rw [padLen, h]

/-- Settles O39: L mod 16 is below 16, so the difference is 1 to 16. -/
theorem padLenIsOneToSixteen : Obligations.PadLenIsOneToSixteen := fun n =>
  ⟨rfl, padLen_pos n, padLen_le n, padLen_of_mod_eq_zero⟩

/-- A padding value fits a byte. -/
theorem toNat_ofNat_of_le_sixteen {p : Nat} (h : p ≤ 16) : (BitVec.ofNat 8 p).toNat = p := by
  rw [BitVec.toNat_ofNat, Nat.mod_eq_of_lt (by omega)]

/-- R104: the padding byte has the value PadLen. -/
@[simp] theorem padByte_toNat (n : Nat) : (padByte n).toNat = padLen n :=
  toNat_ofNat_of_le_sixteen (padLen_le n)

/-- The last byte of a string that ends in copies of a byte is that byte. -/
theorem getLast?_append_replicate (m : Bytes) {p : Nat} (b : Byte) (h : 1 ≤ p) :
    (m ++ List.replicate p b).getLast? = some b := by
  obtain ⟨q, rfl⟩ := Nat.exists_eq_add_of_le' h
  rw [List.replicate_succ', ← List.append_assoc, List.getLast?_concat]

/-- R105: Pad keeps its argument in front. -/
theorem pad_take (m : Bytes) : (pad m).take m.length = m := List.take_left

/-- R104: every byte after the argument is the padding byte. -/
theorem pad_getD {m : Bytes} {j : Nat} (hm : m.length ≤ j) (hj : j < (pad m).length) :
    (pad m).getD j 0 = padByte m.length := by
  have hp : j - m.length < padLen m.length := by
    rw [pad, List.length_append, List.length_replicate] at hj; omega
  rw [pad, List.getD_append_right _ _ _ _ hm, List.getD_replicate _ hp]

/-- R105: the last byte of what Pad returns. -/
theorem pad_getLast? (m : Bytes) : (pad m).getLast? = some (padByte m.length) :=
  getLast?_append_replicate m _ (padLen_pos _)

/-- Settles O40: each clause reads one part of the appended run of padding bytes. -/
theorem padAppendsPadLenBytes : Obligations.PadAppendsPadLenBytes := by
  intro m
  refine ⟨?length, pad_length m, pad_take m, ?bytes, padByte m.length, pad_getLast? m, padByte_toNat _⟩
  case length => rw [pad, List.length_append, List.length_replicate]
  case bytes => exact fun j hm hj => by rw [pad_getD hm hj, padByte_toNat]

/-- R106: Unpad succeeds when its three checks pass: the last byte is 1 to 16, no more than the length, and that many bytes at the
end equal it. -/
theorem unpad_eq_ok_iff_checks {x m : Bytes} :
    unpad x = .ok m ↔ ∃ b, x.getLast? = some b ∧ 1 ≤ b.toNat ∧ b.toNat ≤ 16 ∧ b.toNat ≤ x.length ∧
      (∀ c ∈ x.drop (x.length - b.toNat), c = b) ∧ x.take (x.length - b.toNat) = m := by
  unfold unpad
  cases x.getLast? with
  | none => simp
  | some b =>
    simp only [Option.some.injEq, exists_eq_left', List.all_eq_true, beq_iff_eq]
    split_ifs with hrange hlen hall
    · exact iff_of_false nofun fun ⟨hpos, hle, _⟩ => by omega
    · exact iff_of_false nofun fun ⟨_, _, hle, _⟩ => by omega
    · rw [Except.ok.injEq]
      exact ⟨fun h => ⟨by omega, by omega, by omega, hall, h⟩, fun ⟨_, _, _, _, h⟩ => h⟩
    · exact iff_of_false nofun fun ⟨_, _, _, hrun, _⟩ => hall hrun

/-- R106: Unpad takes off exactly a run of `p` bytes of value `p`, for a `p` of 1 to 16. -/
theorem unpad_eq_ok_iff {x m : Bytes} :
    unpad x = .ok m ↔ ∃ p, 1 ≤ p ∧ p ≤ 16 ∧ x = m ++ List.replicate p (BitVec.ofNat 8 p) := by
  rw [unpad_eq_ok_iff_checks]
  constructor
  · rintro ⟨b, -, hpos, hle, hlen, hall, rfl⟩
    have hrun : x.drop (x.length - b.toNat) = List.replicate b.toNat b :=
      List.eq_replicate_iff.mpr ⟨by rw [List.length_drop]; omega, hall⟩
    refine ⟨b.toNat, hpos, hle, ?_⟩
    rw [BitVec.ofNat_toNat, BitVec.setWidth_eq, ← hrun, List.take_append_drop]
  · rintro ⟨p, hpos, hle, rfl⟩
    have hm : (m ++ List.replicate p (BitVec.ofNat 8 p)).length - p = m.length := by simp
    refine ⟨BitVec.ofNat 8 p, getLast?_append_replicate m _ hpos, ?_⟩
    rw [toNat_ofNat_of_le_sixteen hle, hm, List.drop_left, List.take_left]
    exact ⟨hpos, hle, by simp, fun c => List.eq_of_mem_replicate, rfl⟩

/-- Settles O41: Unpad's checks say that the string ends in a run of padding, and each of its failing branches gives the one error. -/
theorem unpadAcceptsExactlyValidPadding : Obligations.UnpadAcceptsExactlyValidPadding := fun _ =>
  ⟨fun _ => unpad_eq_ok_iff, fun _ => unpad_error⟩

end Sys2Proof.Machine
end

section
/-! PROOFS. The validator commands: LDKEY and VENV as whole next states (41_validator_commands.md R130, R131). -/

namespace Sys2Proof.Machine

/-- R130: byte `j` of the presented key is `IBUF[j]`. -/
theorem presentedKey_eq_ofFn_read (s : State) :
    presentedKey s = Vector.ofFn fun j => Memory.read s.ibuf j.val := by
  simp only [presentedKey, memReadBlock, Nat.zero_add]

/-- Settles O9: LDKEY's two completions, one on each side of ILEN = 16. -/
theorem ldkeyLatchesOrClearsTheKey : Obligations.LdkeyLatchesOrClearsTheKey := by
  intro s
  rw [exec, execLdkey, ← presentedKey_eq_ofFn_read]
  obtain ⟨hlen, hcmd⟩ | ⟨hlen, hcmd⟩ := ldkeyCommand_cases s
  · rw [if_pos hlen, hcmd]; rfl
  · rw [if_neg hlen, hcmd]; rfl

/-- Settles O10: VENV's two completions, told apart by the length check alone. -/
theorem venvJudgesTheLengthAlone : Obligations.VenvJudgesTheLengthAlone := by
  intro s
  simp only [exec, execVenv, ← validEnvLen_iff]
  obtain ⟨hlen, hcmd⟩ | ⟨hlen, hcmd⟩ := venvCommand_cases s
  · rw [if_pos hlen, hcmd]; rfl
  · rw [if_neg (ne_true_of_eq_false hlen), hcmd]; rfl

end Sys2Proof.Machine
end

section
/-! PROOFS. The codec commands: ENC and DEC as whole next states (42_codec_commands.md R140, R141), and what the outcome of a command
depends on (R142). -/

namespace Sys2Proof.Machine

/-- R52: byte `a` of the operand is `IBUF[a]`. -/
theorem operand_eq_map_read (s : State) : operand s = (List.range s.ilen.toNat).map (Memory.read s.ibuf) := by
  simp only [operand, operandLength, memRead, Nat.zero_add]

/-- Settles O11: ENC's three completions, one per branch of its pre-checks. -/
theorem encEncodesTheOperand : Obligations.EncEncodesTheOperand := by
  intro s
  rw [← operand_eq_map_read, exec, execEnc]
  refine ⟨_, rfl, ?length, ?next⟩
  case length => rw [encodeFn_length, operand_length]
  case next =>
    obtain ⟨hkey, hcmd⟩ | ⟨hkey, hcap, hcmd⟩ | ⟨hkey, hcap, hcmd⟩ := encCommand_cases Config.unit s
    · rw [if_pos hkey, hcmd]; rfl
    · rw [if_neg (ne_false_of_eq_true hkey), if_pos hcap, hcmd]; rfl
    · rw [if_neg (ne_false_of_eq_true hkey), if_neg (not_lt.mpr hcap), hcmd]; rfl

/-- R114: the lengths DEC refuses. -/
theorem validEnvLen_eq_false_iff (n : Nat) : validEnvLen n = false ↔ n < 32 ∨ n % 16 ≠ 0 := by
  rw [← Bool.not_eq_true, validEnvLen_iff]; omega

/-- Settles O13: DEC's five completions, one per branch of its pre-checks and of DecodeFn. -/
theorem decDecodesTheOperand : Obligations.DecDecodesTheOperand := by
  intro s
  simp only [← operand_eq_map_read, ← validEnvLen_eq_false_iff, exec, execDec]
  obtain ⟨hkey, hcmd⟩ | ⟨hkey, hlen, hcmd⟩ | ⟨hkey, hlen, hcap, hcmd⟩ | ⟨hkey, hlen, hcap, hdec, hcmd⟩ |
    ⟨hkey, hlen, hcap, m, hdec, hcmd⟩ := decCommand_cases Config.unit s
  · rw [if_pos hkey, hcmd]; rfl
  · rw [if_neg (ne_false_of_eq_true hkey), if_pos hlen, hcmd]; rfl
  · rw [if_neg (ne_false_of_eq_true hkey), if_neg (ne_false_of_eq_true hlen), if_pos hcap, hcmd]; rfl
  · rw [if_neg (ne_false_of_eq_true hkey), if_neg (ne_false_of_eq_true hlen), if_neg (not_lt.mpr hcap), hdec, hcmd]; rfl
  · rw [if_neg (ne_false_of_eq_true hkey), if_neg (ne_false_of_eq_true hlen), if_neg (not_lt.mpr hcap), hdec, hcmd]; rfl

/-- R142: the two states agree in ILEN, in the operand's bytes inside the buffer, and in KEY and KEYVALID. -/
structure SameInputs (P : Platform) (s s' : State) : Prop where
  ilen : s'.ilen = s.ilen
  read : ∀ a, a < s.ilen.toNat → a < P.ibufCap → Memory.read s'.ibuf a = Memory.read s.ibuf a
  key : s'.key = s.key
  keyValid : s'.keyValid = s.keyValid

/-- R142: the two states show the same outcome of a command: OUT, OK, ERR, ERRCODE, KEY and KEYVALID. -/
def SameOutcome (t t' : State) : Prop :=
  t'.out = t.out ∧ t'.ok = t.ok ∧ t'.err = t.err ∧ t'.errCode = t.errCode ∧ t'.key = t.key ∧ t'.keyValid = t.keyValid

/-- Error completion shows the error, KEY and KEYVALID. -/
theorem raise_sameOutcome (k : ErrorKind) {s s' : State} (hkey : s'.key = s.key) (hvalid : s'.keyValid = s.keyValid) :
    SameOutcome (raise k s) (raise k s') := ⟨rfl, rfl, rfl, rfl, hkey, hvalid⟩

/-- Success completion shows the result, KEY and KEYVALID. -/
theorem complete_sameOutcome (out : Bytes) {s s' : State} (hkey : s'.key = s.key) (hvalid : s'.keyValid = s.keyValid) :
    SameOutcome (complete out s) (complete out s') := ⟨rfl, rfl, rfl, rfl, hkey, hvalid⟩

namespace SameInputs

/-- R24: ILEN alone is the operand's length. -/
theorem operandLength_eq {P : Platform} {s s' : State} (h : SameInputs P s s') : operandLength s' = operandLength s :=
  congrArg BitVec.toNat h.ilen

/-- An operand that fits the buffer is the same string in both states. -/
theorem operand_eq {P : Platform} {s s' : State} (h : SameInputs P s s') (hcap : operandLength s ≤ P.ibufCap) :
    operand s' = operand s := by
  rw [operand_eq_map_read, operand_eq_map_read, h.ilen]
  refine List.map_congr_left fun a ha => ?_
  have hlt : a < s.ilen.toNat := List.mem_range.mp ha
  exact h.read a hlt (hlt.trans_le hcap)

/-- The key an LDKEY of length 16 latches is the same in both states: the buffer holds at least 32 bytes. -/
theorem presentedKey_eq {P : Platform} {s s' : State} (h : SameInputs P s s') (hlen : s.ilen.toNat = 16) :
    presentedKey s' = presentedKey s := by
  rw [presentedKey_eq_ofFn_read, presentedKey_eq_ofFn_read]
  refine congrArg Vector.ofFn (funext fun j => h.read j.val ?_ ?_)
  · rw [hlen]; exact j.isLt
  · exact j.isLt.trans (lt_of_lt_of_le (by decide) P.cap_ge)

/-- R142 for LDKEY: the new KEY and KEYVALID are written from ILEN and the presented key. -/
theorem ldkeyCommand_sameOutcome {P : Platform} {s s' : State} (h : SameInputs P s s') :
    SameOutcome (ldkeyCommand s) (ldkeyCommand s') := by
  rw [ldkeyCommand, ldkeyCommand, h.operandLength_eq]
  split_ifs with hlen
  · rw [h.presentedKey_eq (beq_iff_eq.mp hlen)]
    exact complete_sameOutcome _ rfl rfl
  · exact raise_sameOutcome _ rfl rfl

/-- R142 for VENV: ILEN alone decides. -/
theorem venvCommand_sameOutcome {P : Platform} {s s' : State} (h : SameInputs P s s') :
    SameOutcome (venvCommand s) (venvCommand s') := by
  rw [venvCommand, venvCommand, h.operandLength_eq]
  split_ifs
  · exact complete_sameOutcome _ h.key h.keyValid
  · exact raise_sameOutcome _ h.key h.keyValid

/-- R142 for ENC: the operand is read only once it fits the buffer, and the draw is the one further input. -/
theorem encCommand_sameOutcome {P : Platform} {s s' : State} (h : SameInputs P s s') (hdraw : P.draw s'.draws = P.draw s.draws) :
    SameOutcome (encCommand P s) (encCommand P s') := by
  rw [encCommand, encCommand, h.operandLength_eq, h.keyValid, h.key, hdraw]
  split_ifs with hkey hcap
  · exact raise_sameOutcome _ h.key h.keyValid
  · exact raise_sameOutcome _ h.key h.keyValid
  · rw [h.operand_eq (not_lt.mp hcap)]
    exact complete_sameOutcome _ h.key h.keyValid

/-- R142 for DEC: the operand is read only once it fits the buffer. -/
theorem decCommand_sameOutcome {P : Platform} {s s' : State} (h : SameInputs P s s') :
    SameOutcome (decCommand P s) (decCommand P s') := by
  rw [decCommand, decCommand, h.operandLength_eq, h.keyValid, h.key]
  split_ifs with hkey hlen hcap
  · exact raise_sameOutcome _ h.key h.keyValid
  · exact raise_sameOutcome _ h.key h.keyValid
  · exact raise_sameOutcome _ h.key h.keyValid
  · rw [h.operand_eq (not_lt.mp hcap)]
    cases decodeFn P.blockDecrypt s.key (operand s) with
    | error k => exact raise_sameOutcome k h.key h.keyValid
    | ok m => exact complete_sameOutcome m h.key h.keyValid

end SameInputs

/-- DEC reads nothing that an error completion sets. -/
theorem decCommand_raise (P : Platform) (k : ErrorKind) (s : State) : decCommand P (raise k s) = decCommand P s := rfl

/-- DEC reads nothing that a success completion sets. -/
theorem decCommand_complete (P : Platform) (out : Bytes) (s : State) : decCommand P (complete out s) = decCommand P s := rfl

/-- DEC does nothing but complete, with an error or with a result. -/
theorem decCommand_eq_raise_or_complete (P : Platform) (s : State) :
    (∃ k, decCommand P s = raise k s) ∨ ∃ m, decCommand P s = complete m s := by
  obtain ⟨-, h⟩ | ⟨-, -, h⟩ | ⟨-, -, -, h⟩ | ⟨-, -, -, -, h⟩ | ⟨-, -, -, m, -, h⟩ := decCommand_cases P s
  · exact .inl ⟨_, h⟩
  · exact .inl ⟨_, h⟩
  · exact .inl ⟨_, h⟩
  · exact .inl ⟨_, h⟩
  · exact .inr ⟨m, h⟩

/-- R142: DEC issued again changes nothing. -/
theorem decCommand_decCommand (P : Platform) (s : State) : decCommand P (decCommand P s) = decCommand P s := by
  obtain ⟨k, h⟩ | ⟨m, h⟩ := decCommand_eq_raise_or_complete P s
  · conv_lhs => rw [h, decCommand_raise]
  · conv_lhs => rw [h, decCommand_complete]

/-- Settles O17: each command reads its inputs alone, and DEC's completions change none of them. -/
theorem commandOutcomeDependsOnOperandAndKeyOnly : Obligations.CommandOutcomeDependsOnOperandAndKeyOnly := by
  refine ⟨fun i s s' hilen hread hkey hvalid hdraw => ?outcome, fun s t h => ?again⟩
  case outcome =>
    have hin : SameInputs Config.unit s s' := ⟨hilen, hread, hkey, hvalid⟩
    cases i with
    | ldkey => exact ⟨_, _, rfl, rfl, hin.ldkeyCommand_sameOutcome⟩
    | venv => exact ⟨_, _, rfl, rfl, hin.venvCommand_sameOutcome⟩
    | enc => exact ⟨_, _, rfl, rfl, hin.encCommand_sameOutcome (hdraw rfl)⟩
    | dec => exact ⟨_, _, rfl, rfl, hin.decCommand_sameOutcome⟩
  case again =>
    obtain rfl := Host.Outcome.next.inj h
    exact congrArg Host.Outcome.next (decCommand_decCommand Config.unit s)

end Sys2Proof.Machine
end

section
/-! PROOFS. Errors: which one a word written to REG.CMD ends in (60_exceptions.md R162 to R166, R169), with the padding check read off the
last decrypted block (R164), and the host's view after error completion (R170). -/

namespace Sys2Proof.Machine

/-! ### The padding check looks at the last block only (40_datapath_functions.md R106) -/

@[simp] theorem Block.bytes_getElem (b : Block) {j : Nat} (h : j < b.bytes.length) :
    b.bytes[j] = b[j]'(by rwa [bytes_length] at h) := Vector.getElem_toList _

/-- What follows the earlier blocks of a whole number of blocks is the last one. -/
theorem drop_eq_blockAt_bytes {x : Bytes} {i : Nat} (h : x.length = 16 * (i + 1)) :
    x.drop (16 * i) = (blockAt x i).bytes := by
  refine List.ext_getElem (by rw [List.length_drop, h, Block.bytes_length]; omega) fun j hj hj' => ?_
  rw [List.getElem_drop, Block.bytes_getElem, blockAt_get, List.getD_eq_getElem]

/-- A block's bytes from an index on all have one value exactly when the block has it at each such index. -/
theorem Block.forall_mem_drop_bytes_iff (b : Block) (n : Nat) (v : Byte) :
    (∀ c ∈ b.bytes.drop n, c = v) ↔ ∀ j : Fin 16, n ≤ j.val → b[j] = v := by
  simp only [List.mem_drop_iff_getElem, Block.bytes_getElem, Block.bytes_length]
  constructor
  · intro h j hj
    refine h _ ⟨j.val - n, by omega, ?_⟩
    simp only [Nat.add_sub_cancel' hj, Fin.getElem_fin]
  · rintro h c ⟨j, hj, rfl⟩
    exact h ⟨n + j, by omega⟩ (Nat.le_add_right _ _)

/-- R106: valid padding in a last block, as a proposition. -/
theorem endsInPadding_iff (last : Block) :
    endsInPadding last = true ↔ 1 ≤ last[15].toNat ∧ last[15].toNat ≤ 16 ∧
      ∀ j : Fin 16, 16 - last[15].toNat ≤ j.val → last[j] = last[15] := by
  simp only [endsInPadding, paddingValue, decide_eq_true_eq, BitVec.toNat_inj]

/-- R106: Unpad accepts a nonempty whole number of blocks exactly when the last block ends in valid padding. -/
theorem exists_unpad_eq_ok_iff {x : Bytes} {i : Nat} (h : x.length = 16 * (i + 1)) :
    (∃ m, unpad x = .ok m) ↔ endsInPadding (blockAt x i) = true := by
  have hlast : x.getLast? = some (blockAt x i)[15] := by
    have hidx : x.length - 1 = 16 * i + 15 := by omega
    rw [List.getLast?_eq_getElem?, hidx, List.getElem?_eq_getElem (by omega), blockAt_get, List.getD_eq_getElem]
  have hrun {b : Byte} (hb : b.toNat ≤ 16) : (∀ c ∈ x.drop (x.length - b.toNat), c = b) ↔
      ∀ j : Fin 16, 16 - b.toNat ≤ j.val → (blockAt x i)[j] = b := by
    have hsum : x.length - b.toNat = 16 * i + (16 - b.toNat) := by omega
    rw [hsum, ← List.drop_drop, drop_eq_blockAt_bytes h, Block.forall_mem_drop_bytes_iff]
  simp only [unpad_eq_ok_iff_checks, hlast, Option.some.injEq, exists_eq_left', endsInPadding_iff]
  constructor
  · rintro ⟨m, hpos, hle, -, hall, -⟩
    exact ⟨hpos, hle, (hrun hle).mp hall⟩
  · rintro ⟨hpos, hle, hall⟩
    exact ⟨_, hpos, hle, by omega, (hrun hle).mpr hall, rfl⟩

/-! ### The block DEC's padding check looks at (R109, R116) -/

/-- R52: a block inside the operand is read from IBUF. -/
theorem blockAt_operand {s : State} {i : Nat} (h : 16 * i + 16 ≤ s.ilen.toNat) :
    blockAt (operand s) i = memReadBlock s.ibuf (16 * i) := by
  refine Vector.ext fun j hj => ?_
  rw [blockAt_get _ _ _ hj, operand, memRead_getD _ (by rw [operandLength]; omega), Nat.zero_add, memReadBlock,
    Vector.getElem_ofFn]

/-- R111, R112: an envelope is its IV followed by the rest. -/
theorem split_append (e : Bytes) (h : 16 ≤ e.length) : (split e h).1.bytes ++ (split e h).2 = e := by
  rw [split, Block.bytes_ofBytes, List.take_append_drop]

/-- R112: the IV of an envelope is its block 0. -/
theorem blockAt_zero_eq_split_fst (e : Bytes) (h : 16 ≤ e.length) : blockAt e 0 = (split e h).1 := by
  conv_lhs => rw [← split_append e h, blockAt_append_zero]

/-- R112: block `i + 1` of an envelope is block `i` after its IV. -/
theorem blockAt_succ_eq_split_snd (e : Bytes) (h : 16 ≤ e.length) (i : Nat) : blockAt e (i + 1) = blockAt (split e h).2 i := by
  conv_lhs => rw [← split_append e h, blockAt_append_succ]

/-- R116: block `i` of a decrypted envelope, from two neighbouring blocks of the envelope. -/
theorem blockAt_decryptEnvelope (decrypt : Block → Block → Block) (k : Block) {e : Bytes} (h : validEnvLen e.length = true)
    {i : Nat} (hi : 16 * (i + 2) ≤ e.length) :
    blockAt (decryptEnvelope decrypt k e h) i = xor16 (decrypt k (blockAt e (i + 1))) (blockAt e i) := by
  have hge := validEnvLen_ge h
  have hlen : (split e hge).2.length = e.length - 16 := List.length_drop
  obtain ⟨-, hblock⟩ := cbcDecChainsOnTheReceivedCiphertext decrypt k (split e hge).1 (split e hge).2
    (by rw [hlen]; exact validEnvLen_rest h)
  rw [decryptEnvelope, hblock i (by omega), blockAt_succ_eq_split_snd e hge]
  cases i with
  | zero => rw [if_pos rfl, blockAt_zero_eq_split_fst e hge]
  | succ i => rw [if_neg i.succ_ne_zero, Nat.add_sub_cancel, blockAt_succ_eq_split_snd e hge]

/-- R164: on an operand of an envelope's length DecodeFn succeeds exactly when the last block it decrypts ends in valid padding. -/
theorem exists_decodeFn_operand_eq_ok_iff (P : Platform) {s : State} (h : validEnvLen s.ilen.toNat = true) :
    (∃ m, decodeFn P.blockDecrypt s.key (operand s) = .ok m) ↔ endsInPadding (lastDecryptedBlock P s) = true := by
  have hop : validEnvLen (operand s).length = true := by rwa [operand_length]
  obtain ⟨hge, hmod⟩ := (validEnvLen_iff _).mp h
  have hlen : (decryptEnvelope P.blockDecrypt s.key (operand s) hop).length = 16 * (s.ilen.toNat / 16 - 2 + 1) := by
    rw [decryptEnvelope_length, operand_length]; omega
  rw [decodeFn, dif_pos hop, exists_unpad_eq_ok_iff hlen, lastDecryptedBlock, decryptedBlock,
    blockAt_decryptEnvelope _ _ hop (by rw [operand_length]; omega), blockAt_operand (by omega), blockAt_operand (by omega)]

/-! ### The error each command reports, in the order of R169 -/

/-- R162: LDKEY's one error. -/
theorem ldkeyCommand_errCode (s : State) : (ldkeyCommand s).errCode = if s.ilen.toNat ≠ 16 then 2 else 0 := by
  obtain ⟨hlen, hcmd⟩ | ⟨hlen, hcmd⟩ := ldkeyCommand_cases s
  · rw [hcmd, if_neg (not_not.mpr hlen), complete_errCode]
  · rw [hcmd, if_pos hlen, raise_errCode, ErrorKind.code]

/-- R163: VENV's one error. -/
theorem venvCommand_errCode (s : State) :
    (venvCommand s).errCode = if s.ilen.toNat < 32 ∨ s.ilen.toNat % 16 ≠ 0 then 3 else 0 := by
  simp only [← validEnvLen_eq_false_iff]
  obtain ⟨hlen, hcmd⟩ | ⟨hlen, hcmd⟩ := venvCommand_cases s
  · rw [hcmd, if_neg (ne_false_of_eq_true hlen), complete_errCode]
  · rw [hcmd, if_pos hlen, raise_errCode, ErrorKind.code]

/-- R140: ENC's errors, the missing key first. -/
theorem encCommand_errCode (P : Platform) (s : State) :
    (encCommand P s).errCode = if s.keyValid = false then 2 else if P.ibufCap < s.ilen.toNat then 6 else 0 := by
  obtain ⟨hkey, hcmd⟩ | ⟨hkey, hcap, hcmd⟩ | ⟨hkey, hcap, hcmd⟩ := encCommand_cases P s
  · rw [hcmd, if_pos hkey, raise_errCode, ErrorKind.code]
  · rw [hcmd, if_neg (ne_false_of_eq_true hkey), if_pos hcap, raise_errCode, ErrorKind.code]
  · rw [hcmd, if_neg (ne_false_of_eq_true hkey), if_neg (not_lt.mpr hcap), complete_errCode]

/-- R141: DEC's errors, the three pre-checks before the padding check. -/
theorem decCommand_errCode (P : Platform) (s : State) :
    (decCommand P s).errCode =
      if s.keyValid = false then 2
      else if s.ilen.toNat < 32 ∨ s.ilen.toNat % 16 ≠ 0 then 3
      else if P.ibufCap < s.ilen.toNat then 6
      else if endsInPadding (lastDecryptedBlock P s) = false then 4
      else 0 := by
  simp only [← validEnvLen_eq_false_iff]
  obtain ⟨hkey, hcmd⟩ | ⟨hkey, hlen, hcmd⟩ | ⟨hkey, hlen, hcap, hcmd⟩ | ⟨hkey, hlen, hcap, hdec, hcmd⟩ |
    ⟨hkey, hlen, hcap, m, hdec, hcmd⟩ := decCommand_cases P s
  · rw [hcmd, if_pos hkey, raise_errCode, ErrorKind.code]
  · rw [hcmd, if_neg (ne_false_of_eq_true hkey), if_pos hlen, raise_errCode, ErrorKind.code]
  · rw [hcmd, if_neg (ne_false_of_eq_true hkey), if_neg (ne_false_of_eq_true hlen), if_pos hcap, raise_errCode, ErrorKind.code]
  · have hpad : endsInPadding (lastDecryptedBlock P s) = false := by
      rw [← Bool.not_eq_true, ← exists_decodeFn_operand_eq_ok_iff P hlen, hdec]
      exact fun ⟨_, hok⟩ => nomatch hok
    rw [hcmd, if_neg (ne_false_of_eq_true hkey), if_neg (ne_false_of_eq_true hlen), if_neg (not_lt.mpr hcap), if_pos hpad,
      raise_errCode, ErrorKind.code]
  · have hpad : endsInPadding (lastDecryptedBlock P s) = true := (exists_decodeFn_operand_eq_ok_iff P hlen).mp ⟨m, hdec⟩
    rw [hcmd, if_neg (ne_false_of_eq_true hkey), if_neg (ne_false_of_eq_true hlen), if_neg (not_lt.mpr hcap),
      if_neg (ne_false_of_eq_true hpad), complete_errCode]

/-- Settles O18: a word is illegal or one command's, and a command's word leaves of the whole order that command's own errors. -/
theorem firstErrorInPriorityOrderIsReported : Obligations.FirstErrorInPriorityOrderIsReported := by
  intro w s
  obtain ⟨i, hdec, hissue⟩ | ⟨e, hdec, hissue⟩ := issue_cases w s
  · obtain rfl := decode_eq_ok_iff.mp hdec
    rw [hissue]
    cases i with
    | ldkey => exact ⟨_, rfl, by rw [ldkeyCommand_errCode, show encode .ldkey = 1 from rfl]; simp⟩
    | venv => exact ⟨_, rfl, by rw [venvCommand_errCode, show encode .venv = 2 from rfl]; simp⟩
    | enc => exact ⟨_, rfl, by rw [encCommand_errCode, show encode .enc = 3 from rfl]; simp⟩
    | dec => exact ⟨_, rfl, by rw [decCommand_errCode, show encode .dec = 4 from rfl]; simp⟩
  · have hne : ∀ i, w ≠ encode i := decode_error_iff.mp ⟨e, hdec⟩
    exact ⟨_, hissue, (if_pos ⟨hne .ldkey, hne .venv, hne .enc, hne .dec⟩).symm⟩

/-- Settles O20: the views read the fields that `raise` sets, and KEYVALID, which it keeps. -/
theorem errorCompletionSetsTheOutcomeOnly : Obligations.ErrorCompletionSetsTheOutcomeOnly := by
  intro k s
  refine ⟨rfl, ?status, olenWord_of_out_nil (raise_out k s), readObuf_of_out_nil (raise_out k s)⟩
  case status => simp [statusWord_toNat]

end Sys2Proof.Machine
end

section
/-! PROOFS. Reset (70_reset_and_hazards.md R191): the state it leaves, and that no access but a failing LDKEY clears KEYVALID and none
leaves OK and ERR both 0 where one was 1. -/

namespace Sys2Proof.Machine

/-- R191: a step with a reset next is the reset, the event taken. -/
theorem step_of_reset {s : State} {rest : List HostEvent} (h : s.pending = .reset :: rest) :
    step s = .next (resetUnit { s with pending := rest }) := by
  rw [step, takeEvent, h]; rfl

/-- A step with neither a reset nor a write to REG.CMD next changes nothing of the outcome, KEY or KEYVALID. -/
theorem step_next_cases {s t : State} (h : step s = .next t) :
    NextIsReset s ∨
    (∃ w rest, s.pending = wrCmdWord w :: rest ∧ issue w (respond .done { s with pending := rest }) = .next t) ∨
    SameOutcome s t := by
  obtain ⟨-, hstep⟩ | ⟨rest, hnext, -⟩ | ⟨a, rest, hnext, hstep⟩ := step_cases s
  · obtain rfl := Host.Outcome.next.inj (hstep.symm.trans h)
    exact .inr (.inr ⟨rfl, rfl, rfl, rfl, rfl, rfl⟩)
  · exact .inl ⟨rest, hnext⟩
  · have haccess := hstep.symm.trans h
    obtain ⟨w, rfl, e⟩ | ⟨v, -, e⟩ | ⟨i, b, -, -, e⟩ | ⟨-, r, e⟩ :=
      access_cases Config.unit a { s with pending := rest }
    · exact .inr (.inl ⟨w, rest, hnext, e.symm.trans haccess⟩)
    all_goals
      obtain rfl := Host.Outcome.next.inj (e.symm.trans haccess)
      exact .inr (.inr ⟨rfl, rfl, rfl, rfl, rfl, rfl⟩)

/-- R22: no command but LDKEY writes KEYVALID. -/
theorem exec_keyValid {i : Instr} (hi : i ≠ .ldkey) {s t : State} (h : exec i s = .next t) : t.keyValid = s.keyValid := by
  rcases exec_cases i s with ⟨hld, -⟩ | ⟨hld, -⟩ | ⟨-, e⟩ | ⟨-, e⟩ | ⟨-, -, e⟩ | ⟨-, -, -, e⟩ | ⟨-, e⟩ |
    ⟨-, -, -, e⟩ | ⟨-, -, m, -, e⟩
  · exact absurd hld hi
  · exact absurd hld hi
  all_goals obtain rfl := Host.Outcome.next.inj (e.symm.trans h); rfl

/-- R130: an LDKEY of length 16 sets KEYVALID, any other clears it. -/
theorem ldkeyCommand_keyValid_eq_false_iff (s : State) : (ldkeyCommand s).keyValid = false ↔ s.ilen.toNat ≠ 16 := by
  obtain ⟨hlen, hcmd⟩ | ⟨hlen, hcmd⟩ := ldkeyCommand_cases s <;> simp [hcmd, hlen]

/-- R191: a word whose issue clears KEYVALID is a failing LDKEY. -/
theorem issue_clears_keyValid {w : Word} {s t : State} (h : issue w s = .next t) (hs : s.keyValid = true)
    (ht : t.keyValid = false) : w = encode .ldkey ∧ s.ilen.toNat ≠ 16 := by
  obtain ⟨i, hdec, hissue⟩ | ⟨e, -, hissue⟩ := issue_cases w s
  · have hexec := hissue.symm.trans h
    by_cases hi : i = .ldkey
    · subst hi
      obtain rfl := Host.Outcome.next.inj hexec
      exact ⟨decode_eq_ok_iff.mp hdec, (ldkeyCommand_keyValid_eq_false_iff s).mp ht⟩
    · simp [exec_keyValid hi hexec, hs] at ht
  · obtain rfl := Host.Outcome.next.inj (hissue.symm.trans h)
    simp [hs] at ht

/-- R83, R87, R170: every word written to REG.CMD ends in one of the two completions, so exactly one of OK and ERR is 1. -/
theorem issue_ok_eq_not_err {w : Word} {s t : State} (h : issue w s = .next t) : t.ok = !t.err := by
  obtain ⟨i, -, hissue⟩ | ⟨e, -, hissue⟩ := issue_cases w s <;> rw [hissue] at h
  · rcases exec_cases i s with ⟨-, -, e⟩ | ⟨-, -, e⟩ | ⟨-, e⟩ | ⟨-, e⟩ | ⟨-, -, e⟩ | ⟨-, -, -, e⟩ | ⟨-, e⟩ |
      ⟨-, -, -, e⟩ | ⟨-, -, m, -, e⟩ <;> obtain rfl := Host.Outcome.next.inj (e.symm.trans h) <;> rfl
  · obtain rfl := Host.Outcome.next.inj h
    rfl

/-- Settles O23: a step that is no reset and no command keeps KEYVALID, OK and ERR, and a command ends in a completion, which sets
exactly one of OK and ERR. -/
theorem resetClearsTheUnit : Obligations.ResetClearsTheUnit := by
  refine ⟨fun s ⟨rest, hnext⟩ => ?reset, fun s t h hs ht => ?keyValid, fun s t h hs hok herr => ?outcome⟩
  case reset => exact ⟨_, step_of_reset hnext, rfl, rfl, rfl, rfl, rfl, rfl, rfl, rfl, rfl, rfl⟩
  case keyValid =>
    obtain hreset | ⟨w, rest, hnext, hissue⟩ | ⟨-, -, -, -, -, hvalid⟩ := step_next_cases h
    · exact .inl hreset
    · obtain ⟨rfl, hlen⟩ := issue_clears_keyValid hissue hs ht
      exact .inr ⟨⟨rest, hnext⟩, hlen⟩
    · simp [hvalid, hs] at ht
  case outcome =>
    obtain hreset | ⟨w, rest, -, hissue⟩ | ⟨-, hok', herr', -⟩ := step_next_cases h
    · exact hreset
    · simpa [hok, herr] using issue_ok_eq_not_err hissue
    · simp [← hok', ← herr', hok, herr] at hs

end Sys2Proof.Machine
end

section
/-! PROOFS. Decode and encode agree through the opcode table's numbering too, and a command's word next at the port, written there or
placed, runs that command (30_encoding.md R82 to R86). -/

namespace Sys2Proof

/-- R80, R82: the fields of every command's word pass both checks. -/
theorem fieldsOf_wellFormed (i : Instr) : (fieldsOf i).wellFormed = true := by
  cases i with
  | ldkey => exact Laws.EncodingFields.ldkey.1
  | venv => exact Laws.EncodingFields.venv.1
  | enc => exact Laws.EncodingFields.enc.1
  | dec => exact Laws.EncodingFields.dec.1

/-- R86: a table word is read only within 32 bits, and then by Decode. -/
theorem decodeTableWord_eq_some_iff {n w : Nat} {i : Instr} :
    decodeTableWord n w = some i ↔ n ≤ 32 ∧ decode (BitVec.ofNat 32 (w % 2 ^ n)) = .ok i := by
  unfold decodeTableWord
  split_ifs with hn
  · cases decode (BitVec.ofNat 32 (w % 2 ^ n)) <;> simp [hn]
  · simp [hn]

/-- Settles O3: each direction is the decoder's law for words, a table word being the word of its low 32 bits. -/
theorem decodeEncodeAgree : Obligations.DecodeEncodeAgree := by
  intro i
  refine ⟨fun w => decode_eq_ok_iff, fieldsOf_wellFormed i, fun w => ?table⟩
  case table =>
    rw [decodeTableWord_eq_some_iff, and_iff_right (le_refl 32), decode_eq_ok_iff, ← BitVec.toNat_inj, BitVec.toNat_ofNat,
      Nat.mod_mod]

/-- Settles O1: the four words are the commands' own, and of each illegal word one field decides. -/
theorem commandWordsDecode : Obligations.CommandWordsDecode :=
  ⟨decode_eq_ok_iff.mpr rfl, decode_eq_ok_iff.mpr rfl, decode_eq_ok_iff.mpr rfl, decode_eq_ok_iff.mpr rfl,
    by decide, by decide, by decide, by decide, by decide⟩

namespace Machine

/-- R83: issue of a command's word is the command. -/
theorem issue_of_ok {w : Word} {i : Instr} (h : decode w = .ok i) (s : State) : issue w s = exec i s := by
  rw [issue, h]

/-- Settles O4: the write reaches REG.CMD and its word is issued. -/
theorem stepRunsIssuedCommand : Obligations.StepRunsIssuedCommand := fun _ _ _ _ hnext hdec =>
  (step_of_wrCmdWord hnext).trans (issue_of_ok hdec _)

/-- R86: a table word of at most 32 bits is placed as the host's write of that word to REG.CMD. -/
theorem withFetchWord_pending {n : Nat} (hn : n ≤ 32) (w : Nat) (s : State) :
    (s.withFetchWord n w).pending = wrCmdWord (BitVec.ofNat 32 (w % 2 ^ n)) :: s.pending := by
  rw [State.withFetchWord, commandWrite, if_pos hn, wrCmdWord]

/-- Settles O5: a table word that reads as a command is placed as the write of that command's word. -/
theorem placedWordRunsNext : Obligations.PlacedWordRunsNext := by
  intro s n w i htable
  obtain ⟨hn, hdec⟩ := decodeTableWord_eq_some_iff.mp htable
  exact stepRunsIssuedCommand _ _ _ _ (withFetchWord_pending hn w s) hdec

/-- Settles O8: with no event to take, the step takes none. -/
theorem idleUnitHoldsItsState : Obligations.IdleUnitHoldsItsState := by
  intro s h
  rw [step, takeEvent, h]

end Machine

end Sys2Proof
end

section
/-! PROOFS. The invariant of 10_state.md section 5 (R37), operation by operation, then of every step and every reachable state. -/

namespace Sys2Proof.Machine

/-! ### The operations of the port, and KEY with KEYVALID (20_memory.md R54 to R57; 41_validator_commands.md R130) -/

section
variable {P : Platform} {s : State}

/-- An event taken from the host is nothing of the unit's. -/
theorem Inv.takePending (h : Inv P s) (es : List HostEvent) : Inv P { s with pending := es } := { h with }

theorem Inv.respond (h : Inv P s) (r : Answer) : Inv P (respond r s) := { h with }

theorem Inv.takeDraw (h : Inv P s) : Inv P (takeDraw s) := { h with }

/-- R24: ILEN may hold any value. -/
theorem Inv.setIlen (h : Inv P s) (v : Word) : Inv P (setIlen v s) := { h with }

/-- R57: a byte write inside the buffer keeps its canonical form and its bound. -/
theorem Inv.writeIbuf (h : Inv P s) {a : Nat} (ha : a < P.ibufCap) (b : Byte) : Inv P (writeIbuf a b s) where
  __ := h
  ibufWf := Memory.wf_write a b h.ibufWf
  ibufFits c hc := by
    obtain rfl | hc := Memory.mem_write hc
    · exact ha
    · exact h.ibufFits c hc

/-- R130: a valid key may be any block. -/
theorem Inv.setKey_valid (h : Inv P s) (k : Block) : Inv P (setKey k true s) where
  __ := h
  noKeyZero := nofun

/-- R130: with KEYVALID cleared, KEY is zero. -/
theorem Inv.setKey_cleared (h : Inv P s) : Inv P (setKey Block.zero false s) where
  __ := h
  noKeyZero _ := rfl

/-- R191, R40: reset establishes the invariant, whatever the state was. -/
theorem Inv.resetUnit (P : Platform) (s : State) : Inv P (resetUnit s) where
  notBoth := by simp [State.reset]
  codeWithErr := by simp [State.reset]
  errEmpty _ := rfl
  noKeyZero _ := rfl
  outFits := Nat.zero_le _
  codeProduced := .inl rfl
  outShape := .inl rfl
  ibufWf := rfl
  ibufFits := nofun
  workZero := rfl

/-! ### The two completions (30_encoding.md R87; 60_exceptions.md R170) -/

/-- R37 (g): the shapes of a result: nothing, an envelope, or a plaintext. -/
def ResultShape (P : Platform) (out : Bytes) : Prop :=
  out.length = 0 ∨ (out.length % 16 = 0 ∧ 32 ≤ out.length) ∨ out.length + 17 ≤ P.ibufCap

theorem Inv.complete (h : Inv P s) {out : Bytes} (hfits : out.length ≤ P.obufCap) (hshape : ResultShape P out) :
    Inv P (complete out s) where
  notBoth := by simp
  codeWithErr := by simp
  errEmpty := nofun
  noKeyZero := h.noKeyZero
  outFits := hfits
  codeProduced := .inl rfl
  outShape := hshape
  ibufWf := h.ibufWf
  ibufFits := h.ibufFits
  workZero := rfl

/-- R161: every error kind has a code of its own, and only FileAccessError, which no command raises, has 1. -/
theorem ErrorKind.code_produced {k : ErrorKind} (hk : k ≠ .fileAccess) :
    k.code = 2 ∨ k.code = 3 ∨ k.code = 4 ∨ k.code = 5 ∨ k.code = 6 := by
  cases k with
  | fileAccess => exact absurd rfl hk
  | invalidKey | invalidEnvelope | paddingValidation | illegalCommand | capacity => simp [ErrorKind.code]

/-- R161: code 0 is no error's. -/
theorem ErrorKind.code_ne_zero (k : ErrorKind) : k.code ≠ 0 := by
  cases k <;> simp [ErrorKind.code]

theorem Inv.raise (h : Inv P s) {k : ErrorKind} (hk : k ≠ .fileAccess) : Inv P (raise k s) where
  notBoth := by simp
  codeWithErr := iff_of_true k.code_ne_zero rfl
  errEmpty _ := rfl
  noKeyZero := h.noKeyZero
  outFits := Nat.zero_le _
  codeProduced := .inr (ErrorKind.code_produced hk)
  outShape := .inl rfl
  ibufWf := h.ibufWf
  ibufFits := h.ibufFits
  workZero := rfl

theorem Inv.complete_empty (h : Inv P s) : Inv P (Machine.complete [] s) :=
  h.complete (Nat.zero_le _) (.inl rfl)

/-- R140: an envelope of an operand that fits IBUF fits OBUF. -/
theorem Inv.complete_envelope (h : Inv P s) {out : Bytes} {n : Nat} (hlen : out.length = 16 + 16 * (n / 16 + 1))
    (hcap : n ≤ P.ibufCap) : Inv P (Machine.complete out s) := by
  refine h.complete ?_ (.inr (.inl (by omega)))
  rw [Platform.obufCap]; omega

/-- R141: a plaintext is at least 17 bytes shorter than its envelope. -/
theorem Inv.complete_plaintext (h : Inv P s) {out : Bytes} (hlen : out.length + 17 ≤ P.ibufCap) :
    Inv P (Machine.complete out s) := by
  refine h.complete ?_ (.inr (.inr hlen))
  rw [Platform.obufCap]; omega

end

/-! ### Commands, accesses and steps -/

/-- Every command keeps the invariant, by what it completes with. -/
theorem exec_keeps_inv {i : Instr} {s t : State} (h : Inv Config.unit s) (hstep : exec i s = .next t) : Inv Config.unit t := by
  rcases exec_cases i s with ⟨-, -, e⟩ | ⟨-, -, e⟩ | ⟨-, e⟩ | ⟨-, e⟩ | ⟨-, -, e⟩ | ⟨-, -, -, e⟩ | ⟨-, e⟩ |
    ⟨-, -, hcap, e⟩ | ⟨-, hcap, m, hm, e⟩ <;> obtain rfl := Host.Outcome.next.inj (e.symm.trans hstep)
  · exact (h.setKey_valid _).complete_empty
  · exact h.setKey_cleared.raise nofun
  · exact h.complete_empty
  · exact h.raise nofun
  · exact h.raise nofun
  · exact h.raise nofun
  · exact h.raise nofun
  · exact h.takeDraw.complete_envelope (encodeFn_length _ _ _ _) (by rwa [operand_length])
  · exact h.complete_plaintext (hm.trans hcap)

theorem issue_keeps_inv {w : Word} {s t : State} (h : Inv Config.unit s) (hstep : issue w s = .next t) :
    Inv Config.unit t := by
  obtain ⟨i, -, hi⟩ | ⟨e, -, hi⟩ := issue_cases w s
  · exact exec_keeps_inv h (hi.symm.trans hstep)
  · obtain rfl := Host.Outcome.next.inj (hi.symm.trans hstep)
    exact h.raise nofun

theorem access_keeps_inv {a : Access} {s t : State} (h : Inv Config.unit s) (hstep : access Config.unit a s = .next t) :
    Inv Config.unit t := by
  obtain ⟨w, -, e⟩ | ⟨v, -, e⟩ | ⟨i, b, hi, -, e⟩ | ⟨-, r, e⟩ := access_cases Config.unit a s
  · exact issue_keeps_inv (h.respond _) (e.symm.trans hstep)
  all_goals obtain rfl := Host.Outcome.next.inj (e.symm.trans hstep)
  · exact (h.setIlen v).respond _
  · exact (h.writeIbuf hi b).respond _
  · exact h.respond r

/-- Settles O35: a step holds the state, resets it, or performs an access, and each keeps the invariant. -/
theorem stepKeepsTheInvariant : Obligations.StepKeepsTheInvariant := by
  intro s t h hstep
  obtain ⟨-, e⟩ | ⟨rest, -, e⟩ | ⟨a, rest, -, e⟩ := step_cases s
  · obtain rfl := Host.Outcome.next.inj (e.symm.trans hstep)
    exact h
  · obtain rfl := Host.Outcome.next.inj (e.symm.trans hstep)
    exact Inv.resetUnit _ _
  · exact access_keeps_inv (h.takePending rest) (e.symm.trans hstep)

/-- Settles O34: the reset state is what a reset of it leaves. -/
theorem resetMeetsTheInvariant : Obligations.ResetMeetsTheInvariant := Inv.resetUnit Config.unit State.reset

/-- The invariant holds in every state a run can reach. -/
theorem Reachable.inv {s : State} (h : Reachable s) : Inv Config.unit s := by
  induction h with
  | start n => exact Inv.resetUnit Config.unit { State.reset with draws := n }
  | host es _ ih => exact ih.takePending es
  | step _ hstep ih => exact stepKeepsTheInvariant _ _ ih hstep

/-- Settles O36: the state rules are part of the invariant. -/
theorem reachableStatesKeepTheStateRules : Obligations.ReachableStatesKeepTheStateRules := by
  intro s hs
  obtain ⟨hboth, hcode, hempty, hkey, hfits, hproduced, hshape⟩ := hs.inv.toStateRules
  exact ⟨hboth, hcode, hempty, hkey, hfits, hproduced, by omega⟩

/-- Settles O28: STATUS is OK + 2 ERR + 4 KEYVALID, and OK and ERR are never both 1. -/
theorem statusReadsOneOfSixValues : Obligations.StatusReadsOneOfSixValues := by
  intro s hs
  have hsum : s.ok.toNat + s.err.toNat ≤ 1 := by
    cases hok : s.ok with
    | false => simpa using Bool.toNat_le s.err
    | true =>
      have herr : s.err = false := by simpa [hok] using hs.inv.notBoth
      simp [herr]
  have hvalid := Bool.toNat_le s.keyValid
  rw [regRead, statusWord_toNat]
  omega

end Sys2Proof.Machine
end

section
/-! PROOFS. What two states that differ in KEY alone show: every access and every command but ENC and DEC acts on both alike
(10_state.md R33, R34). -/

namespace Sys2Proof.Machine

/-- KEY replaced, everything else kept. -/
def withKey (k : Block) (s : State) : State := { s with key := k }

/-- No register shows anything of KEY. -/
theorem regRead_withKey (r : Reg) (k : Block) (s : State) : regRead r (withKey k s) = regRead r s := by
  cases r <;> rfl

/-- LDKEY overwrites KEY, whatever it was. -/
theorem ldkeyCommand_withKey (k : Block) (s : State) : ldkeyCommand (withKey k s) = ldkeyCommand s := rfl

/-- VENV does not look at KEY. -/
theorem venvCommand_withKey (k : Block) (s : State) : venvCommand (withKey k s) = withKey k (venvCommand s) := by
  rw [venvCommand, venvCommand, apply_ite (withKey k)]
  rfl

/-- Issue of any word but ENC's and DEC's tells nothing of KEY. -/
theorem issue_withKey {w : Word} (henc : w ≠ encode .enc) (hdec : w ≠ encode .dec) (k : Block) (s : State) :
    ∃ t k', issue w s = .next t ∧ issue w (withKey k s) = .next (withKey k' t) := by
  cases hw : decode w with
  | error e =>
    rw [issue_of_error ⟨e, hw⟩, issue_of_error ⟨e, hw⟩]
    exact ⟨_, k, rfl, rfl⟩
  | ok i =>
    rw [issue_of_ok hw, issue_of_ok hw]
    cases i with
    | ldkey => exact ⟨ldkeyCommand s, (ldkeyCommand s).key, rfl, congrArg Host.Outcome.next (ldkeyCommand_withKey k s)⟩
    | venv => exact ⟨venvCommand s, k, rfl, congrArg Host.Outcome.next (venvCommand_withKey k s)⟩
    | enc => exact absurd (decode_eq_ok_iff.mp hw) henc
    | dec => exact absurd (decode_eq_ok_iff.mp hw) hdec

/-- R33: no register access tells anything of KEY, but a write that issues ENC or DEC. -/
theorem writeReg_withKey {r : Reg} {v : Word} (henc : r = .cmd → v ≠ encode .enc) (hdec : r = .cmd → v ≠ encode .dec)
    (k : Block) (s : State) :
    ∃ t k', writeReg r v s = .next t ∧ writeReg r v (withKey k s) = .next (withKey k' t) := by
  cases r with
  | cmd => exact issue_withKey (henc rfl) (hdec rfl) k (respond .done s)
  | status | errcode | ilen | olen => exact ⟨_, k, rfl, rfl⟩

/-- R33: KEY has no address, so no access tells anything of it, but a write that issues ENC or DEC. -/
theorem access_withKey {P : Platform} {a : Access} (henc : a ≠ .write .reg Reg.cmd.offset (.word (encode .enc)))
    (hdec : a ≠ .write .reg Reg.cmd.offset (.word (encode .dec))) (k : Block) (s : State) :
    ∃ t k', access P a s = .next t ∧ access P a (withKey k s) = .next (withKey k' t) := by
  by_cases hadm : admitted P a = true
  · obtain ⟨off, hoff, ha⟩ | ⟨i, hi, rfl | ⟨b, rfl⟩⟩ | ⟨i, hi, rfl | ⟨b, rfl⟩⟩ := (admitted_iff P a).mp hadm
    · obtain ⟨r, rfl⟩ := exists_eq_offset_iff.mpr hoff
      obtain rfl | ⟨v, rfl⟩ := ha
      · rw [access_readReg, access_readReg, regRead_withKey]
        exact ⟨_, k, rfl, rfl⟩
      · rw [access_writeReg, access_writeReg]
        refine writeReg_withKey ?_ ?_ k s
        · rintro rfl rfl; exact henc rfl
        · rintro rfl rfl; exact hdec rfl
    · exact ⟨_, k, access_readIbuf hi s, access_readIbuf hi _⟩
    · exact ⟨_, k, access_writeIbuf hi b s, access_writeIbuf hi b _⟩
    · exact ⟨_, k, access_readObuf hi s, access_readObuf hi _⟩
    · exact ⟨_, k, access_writeObuf hi b s, access_writeObuf hi b _⟩
  · exact ⟨_, k, access_of_not_admitted hadm s, access_of_not_admitted hadm _⟩

/-- Settles O37: reset clears KEY, and no access but an ENC or a DEC depends on it. -/
theorem onlyEncAndDecRevealTheKey : Obligations.OnlyEncAndDecRevealTheKey := by
  intro s k henc hdec
  obtain ⟨hnext, hstep⟩ | ⟨rest, hnext, hstep⟩ | ⟨a, rest, hnext, hstep⟩ := step_cases s
  · exact ⟨s, k, hstep, idleUnitHoldsItsState _ hnext⟩
  · exact ⟨_, Block.zero, hstep, step_of_reset (s := withKey k s) hnext⟩
  · have henc' : a ≠ .write .reg Reg.cmd.offset (.word (encode .enc)) := by
      rintro rfl; exact henc ⟨rest, hnext⟩
    have hdec' : a ≠ .write .reg Reg.cmd.offset (.word (encode .dec)) := by
      rintro rfl; exact hdec ⟨rest, hnext⟩
    obtain ⟨t, k', ht, ht'⟩ := access_withKey (P := Config.unit) henc' hdec' k { s with pending := rest }
    exact ⟨t, k', hstep.trans ht, (step_of_access (s := withKey k s) hnext).trans ht'⟩

end Sys2Proof.Machine
end

section
/-! PROOFS. What the commands and the steps change and leave: the one outcome of a command, its frame, draws, and which events can
change KEY, the operand and the outcome (10_state.md R21 to R28; 60_exceptions.md R160, R167, R169). -/

namespace Sys2Proof.Machine

/-! ### Commands -/

/-- Settles O15: each of a command's ends is one of the two completions, with an error of that command's own. -/
theorem everyCommandEndsInOneOutcome : Obligations.EveryCommandEndsInOneOutcome := by
  intro i s
  rcases exec_cases i s with ⟨rfl, -, e⟩ | ⟨rfl, -, e⟩ | ⟨rfl, e⟩ | ⟨hi, e⟩ | ⟨hi, -, e⟩ | ⟨hi, -, -, e⟩ | ⟨rfl, e⟩ |
    ⟨rfl, -, -, e⟩ | ⟨rfl, -, m, -, e⟩ <;> refine ⟨_, e, ?_, rfl⟩
  · exact .inl ⟨rfl, rfl, rfl⟩
  · exact .inr ⟨rfl, rfl, rfl, .inl ⟨rfl, nofun⟩⟩
  · exact .inl ⟨rfl, rfl, rfl⟩
  · exact .inr ⟨rfl, rfl, rfl, .inr (.inl ⟨rfl, hi⟩)⟩
  · have hne : i ≠ .venv := by rintro rfl; simp at hi
    exact .inr ⟨rfl, rfl, rfl, .inl ⟨rfl, hne⟩⟩
  · exact .inr ⟨rfl, rfl, rfl, .inr (.inr (.inl ⟨rfl, hi⟩))⟩
  · exact .inr ⟨rfl, rfl, rfl, .inr (.inr (.inr ⟨rfl, rfl⟩))⟩
  · exact .inl ⟨rfl, rfl, rfl⟩
  · exact .inl ⟨rfl, rfl, rfl⟩

/-- R23, R24: no command writes IBUF or ILEN, nor what stands outside the unit. -/
theorem exec_keeps_operand {i : Instr} {s t : State} (h : exec i s = .next t) :
    t.ibuf = s.ibuf ∧ t.ilen = s.ilen ∧ t.pending = s.pending ∧ t.answer = s.answer := by
  rcases exec_cases i s with ⟨-, -, e⟩ | ⟨-, -, e⟩ | ⟨-, e⟩ | ⟨-, e⟩ | ⟨-, -, e⟩ | ⟨-, -, -, e⟩ | ⟨-, e⟩ |
    ⟨-, -, -, e⟩ | ⟨-, -, m, -, e⟩ <;> obtain rfl := Host.Outcome.next.inj (e.symm.trans h) <;> simp

/-- R21: no command but LDKEY writes KEY. -/
theorem exec_key {i : Instr} (hi : i ≠ .ldkey) {s t : State} (h : exec i s = .next t) : t.key = s.key := by
  rcases exec_cases i s with ⟨hld, -⟩ | ⟨hld, -⟩ | ⟨-, e⟩ | ⟨-, e⟩ | ⟨-, -, e⟩ | ⟨-, -, -, e⟩ | ⟨-, e⟩ |
    ⟨-, -, -, e⟩ | ⟨-, -, m, -, e⟩
  · exact absurd hld hi
  · exact absurd hld hi
  all_goals obtain rfl := Host.Outcome.next.inj (e.symm.trans h); simp

/-- R140: no command takes a draw but an ENC past both pre-checks. -/
theorem exec_draws {i : Instr} {s t : State} (h : exec i s = .next t) :
    (i = .enc ∧ s.keyValid = true ∧ s.ilen.toNat ≤ Config.unit.ibufCap) ∨ t.draws = s.draws := by
  rcases exec_cases i s with ⟨-, -, e⟩ | ⟨-, -, e⟩ | ⟨-, e⟩ | ⟨-, e⟩ | ⟨-, -, e⟩ | ⟨-, -, -, e⟩ | ⟨-, e⟩ |
    ⟨hi, hkey, hcap, -⟩ | ⟨-, -, m, -, e⟩
  pick_goal 8
  · exact .inl ⟨hi, hkey, hcap⟩
  all_goals obtain rfl := Host.Outcome.next.inj (e.symm.trans h); simp

/-- Settles O16: what each command writes besides the outcome is KEY and KEYVALID, or the count of draws, or nothing. -/
theorem commandsLeaveTheRestUnchanged : Obligations.CommandsLeaveTheRestUnchanged := by
  intro i s t h
  obtain ⟨hibuf, hilen, hpending, hanswer⟩ := exec_keeps_operand h
  refine ⟨hibuf, fun a => by rw [hibuf], hilen, hpending, hanswer, fun hi => ⟨exec_key hi h, exec_keyValid hi h⟩, fun hi => ?draws⟩
  case draws =>
    obtain ⟨henc, -⟩ | hdraws := exec_draws h
    · exact absurd henc hi
    · exact hdraws

/-! ### Issue -/

/-- R23, R24: no word written to REG.CMD changes IBUF or ILEN. -/
theorem issue_keeps_operand {w : Word} {s t : State} (h : issue w s = .next t) : t.ibuf = s.ibuf ∧ t.ilen = s.ilen := by
  obtain ⟨i, -, hi⟩ | ⟨e, -, he⟩ := issue_cases w s
  · obtain ⟨hibuf, hilen, -⟩ := exec_keeps_operand (hi.symm.trans h)
    exact ⟨hibuf, hilen⟩
  · obtain rfl := Host.Outcome.next.inj (he.symm.trans h)
    exact ⟨rfl, rfl⟩

/-- R21, R22: no word but LDKEY's changes KEY or KEYVALID. -/
theorem issue_keeps_key {w : Word} (hw : w ≠ encode .ldkey) {s t : State} (h : issue w s = .next t) :
    t.key = s.key ∧ t.keyValid = s.keyValid := by
  obtain ⟨i, hdec, hi⟩ | ⟨e, -, he⟩ := issue_cases w s
  · have hne : i ≠ .ldkey := by rintro rfl; exact hw (decode_eq_ok_iff.mp hdec)
    have hexec := hi.symm.trans h
    exact ⟨exec_key hne hexec, exec_keyValid hne hexec⟩
  · obtain rfl := Host.Outcome.next.inj (he.symm.trans h)
    exact ⟨rfl, rfl⟩

/-- R140, R168: no word takes a draw but ENC's, past both pre-checks. -/
theorem issue_draws {w : Word} {s t : State} (h : issue w s = .next t) :
    (w = encode .enc ∧ s.keyValid = true ∧ s.ilen.toNat ≤ Config.unit.ibufCap) ∨ t.draws = s.draws := by
  obtain ⟨i, hdec, hi⟩ | ⟨e, -, he⟩ := issue_cases w s
  · obtain ⟨rfl, hchecks⟩ | hdraws := exec_draws (hi.symm.trans h)
    · exact .inl ⟨decode_eq_ok_iff.mp hdec, hchecks⟩
    · exact .inr hdraws
  · obtain rfl := Host.Outcome.next.inj (he.symm.trans h)
    exact .inr rfl

/-! ### Steps -/

/-- Settles O7: holding the state, a reset and every access answer a next state, and so does every command. -/
theorem everyStepAnswersNext : Obligations.EveryStepAnswersNext := by
  intro s
  obtain ⟨-, e⟩ | ⟨rest, -, e⟩ | ⟨a, rest, -, e⟩ := step_cases s
  · exact ⟨_, e⟩
  · exact ⟨_, e⟩
  · rw [e]
    obtain ⟨w, -, e⟩ | ⟨v, -, e⟩ | ⟨i, b, -, -, e⟩ | ⟨-, r, e⟩ := access_cases Config.unit a { s with pending := rest }
    · rw [e]; exact issue_next w _
    all_goals exact ⟨_, e⟩

/-- Settles O24: reset sets every field but the host's events and the count of draws. -/
theorem resetKeepsWhatIsOutsideTheUnit : Obligations.ResetKeepsWhatIsOutsideTheUnit := fun _ _ => step_of_reset

/-- R168, R191: a step that takes a draw issues an ENC past both pre-checks. -/
theorem step_draws {s t : State} (h : step s = .next t) :
    (NextIsCommand s (encode .enc) ∧ s.keyValid = true ∧ s.ilen.toNat ≤ Config.unit.ibufCap) ∨ t.draws = s.draws := by
  obtain ⟨-, e⟩ | ⟨rest, -, e⟩ | ⟨a, rest, hnext, e⟩ := step_cases s <;> rw [e] at h
  · obtain rfl := Host.Outcome.next.inj h
    exact .inr rfl
  · obtain rfl := Host.Outcome.next.inj h
    exact .inr rfl
  · obtain ⟨w, rfl, e⟩ | ⟨v, -, e⟩ | ⟨i, b, -, -, e⟩ | ⟨-, r, e⟩ := access_cases Config.unit a { s with pending := rest } <;>
      rw [e] at h
    · obtain ⟨rfl, hchecks⟩ | hdraws := issue_draws h
      · exact .inl ⟨⟨rest, hnext⟩, hchecks⟩
      · exact .inr hdraws
    all_goals obtain rfl := Host.Outcome.next.inj h; exact .inr rfl

/-- R111, R115: an envelope begins with its IV. -/
theorem encodeFn_take (encrypt : Block → Block → Block) (k iv : Block) (m : Bytes) :
    (encodeFn encrypt k iv m).take 16 = iv.bytes :=
  List.take_left' (Block.bytes_length iv)

/-- R140: ENC past its pre-checks. -/
theorem encCommand_of_checks {P : Platform} {s : State} (hkey : s.keyValid = true) (hcap : s.ilen.toNat ≤ P.ibufCap) :
    encCommand P s = complete (encodeFn P.blockEncrypt s.key (P.draw s.draws) (operand s)) (takeDraw s) := by
  obtain ⟨hno, -⟩ | ⟨-, hover, -⟩ | ⟨-, -, h⟩ := encCommand_cases P s
  · simp [hkey] at hno
  · omega
  · exact h

/-- Settles O19: ENC past its pre-checks takes the draw its envelope begins with, and no other step takes one. -/
theorem onlyASuccessfulEncTakesOneDraw : Obligations.OnlyASuccessfulEncTakesOneDraw := by
  intro s t h
  refine ⟨fun ⟨⟨rest, hnext⟩, hkey, hcap⟩ => ?taken, fun hno => (step_draws h).resolve_left hno⟩
  case taken =>
    have hstep : step s = .next (encCommand Config.unit (respond .done { s with pending := rest })) :=
      stepRunsIssuedCommand s rest _ .enc hnext (decode_eq_ok_iff.mpr rfl)
    obtain rfl := Host.Outcome.next.inj (hstep.symm.trans h)
    rw [encCommand_of_checks (s := respond .done { s with pending := rest }) hkey hcap]
    exact ⟨rfl, encodeFn_take _ _ _ _⟩

/-- Settles O25: a step that is neither a reset nor a command keeps KEY and KEYVALID, and so does every command but LDKEY. -/
theorem keyChangesOnlyByLdkeyOrReset : Obligations.KeyChangesOnlyByLdkeyOrReset := by
  intro s t h hchange
  obtain hreset | ⟨w, rest, hnext, hissue⟩ | ⟨-, -, -, -, hkey, hvalid⟩ := step_next_cases h
  · exact .inl hreset
  · by_cases hw : w = encode .ldkey
    · subst hw
      exact .inr ⟨rest, hnext⟩
    · obtain ⟨hkey, hvalid⟩ := issue_keeps_key hw hissue
      simp [hkey, hvalid] at hchange
  · simp [hkey, hvalid] at hchange

/-- R23, R24, R57: what a step that is no reset leaves in IBUF and ILEN. -/
theorem step_operand_cases {s t : State} (h : step s = .next t) (hreset : ¬ NextIsReset s) :
    (t.ibuf = s.ibuf ∧ t.ilen = s.ilen) ∨
    (∃ v rest, s.pending = wrIlen v :: rest ∧ t.ibuf = s.ibuf ∧ t.ilen = v) ∨
    (∃ i b rest, i < Config.unit.ibufCap ∧ s.pending = wbIbuf i b :: rest ∧ t.ibuf = Memory.write s.ibuf i b ∧
      t.ilen = s.ilen) := by
  obtain ⟨-, e⟩ | ⟨rest, hnext, -⟩ | ⟨a, rest, hnext, e⟩ := step_cases s
  · obtain rfl := Host.Outcome.next.inj (e.symm.trans h)
    exact .inl ⟨rfl, rfl⟩
  · exact absurd ⟨rest, hnext⟩ hreset
  · rw [e] at h
    obtain ⟨w, -, e⟩ | ⟨v, rfl, e⟩ | ⟨i, b, hi, rfl, e⟩ | ⟨-, r, e⟩ :=
      access_cases Config.unit a { s with pending := rest } <;> rw [e] at h
    · obtain ⟨hibuf, hilen⟩ := issue_keeps_operand h
      exact .inl ⟨hibuf, hilen⟩
    all_goals obtain rfl := Host.Outcome.next.inj h
    · exact .inr (.inl ⟨v, rest, hnext, rfl, rfl⟩)
    · exact .inr (.inr ⟨i, b, rest, hi, hnext, rfl, rfl⟩)
    · exact .inl ⟨rfl, rfl⟩

/-- Settles O26: the one write of a byte changes no other index, and the one write of ILEN no byte. -/
theorem operandChangesOnlyByHostWritesOrReset : Obligations.OperandChangesOnlyByHostWritesOrReset := by
  intro s t h hreset
  obtain ⟨hibuf, hilen⟩ | ⟨v, rest, hnext, hibuf, rfl⟩ | ⟨i, b, rest, hi, hnext, hibuf, hilen⟩ := step_operand_cases h hreset
  · exact ⟨fun a hne => absurd (by rw [hibuf]) hne, fun hne => absurd hilen hne⟩
  · exact ⟨fun a hne => absurd (by rw [hibuf]) hne, fun _ => ⟨rest, hnext⟩⟩
  · refine ⟨fun a hne => ?_, fun hne => absurd hilen hne⟩
    rw [hibuf] at hne ⊢
    obtain rfl : a = i := by
      by_contra ha
      exact hne (Memory.read_write_other _ b ha)
    exact ⟨hi, rest, by rw [Memory.read_write_same, hnext]⟩

/-- Settles O27: a step that is neither a reset nor a command keeps the outcome, and a command ends in one of the two completions. -/
theorem outcomeChangesOnlyByCommandOrReset : Obligations.OutcomeChangesOnlyByCommandOrReset := by
  intro s t h
  refine ⟨fun hchange => ?change, fun ⟨w, rest, hnext⟩ => ?command⟩
  case change =>
    obtain hreset | ⟨w, rest, hnext, -⟩ | ⟨hout, hok, herr, hcode, -⟩ := step_next_cases h
    · exact .inl hreset
    · exact .inr ⟨w, rest, hnext⟩
    · simp [hout, hok, herr, hcode] at hchange
  case command => exact issue_ok_eq_not_err ((step_of_wrCmdWord hnext).symm.trans h)

end Sys2Proof.Machine
end

section
/-! PROOFS. The laws of the codec functions: Unpad undoes Pad, CbcDec undoes CbcEnc, Split undoes Frame, the length law and the round
trip (40_datapath_functions.md R107, R110 to R114, R117, R118), and what no check can detect (R119). -/

namespace Sys2Proof.Machine

/-- Settles O42: Pad appends one of the runs that Unpad takes off. -/
theorem unpadUndoesPad : Obligations.UnpadUndoesPad := fun m =>
  unpad_eq_ok_iff.mpr ⟨padLen m.length, padLen_pos _, padLen_le _, rfl⟩

/-- R110 on blocks: each ciphertext block is decrypted, and the same previous block taken off again. -/
theorem cbcDecBlocks_cbcEncBlocks {P : Platform} (hinv : P.CipherInverse) (k prev : Block) (ps : List Block) :
    cbcDecBlocks P.blockDecrypt k prev (cbcEncBlocks P.blockEncrypt k prev ps) = ps := by
  induction ps generalizing prev with
  | nil => rfl
  | cons p rest ih => rw [cbcEncBlocks, cbcDecBlocks, hinv, xor16_xor16_cancel_right, ih]

/-- Settles O45: the joined ciphertext is cut into the blocks it was joined from. -/
theorem cbcDecUndoesCbcEnc : Obligations.CbcDecUndoesCbcEnc := by
  intro P hinv k iv x h h'
  simp only [cbcDec, cbcEnc, blocks_joinBlocks, cbcDecBlocks_cbcEncBlocks hinv, joinBlocks_blocks]

/-- R112: Split takes off what Frame put in front. -/
@[simp] theorem split_frame (iv : Block) (c : Bytes) (h : 16 ≤ (frame iv c).length) : split (frame iv c) h = (iv, c) := by
  have htake : (frame iv c).take 16 = iv.bytes := List.take_left' (Block.bytes_length iv)
  have hdrop : (frame iv c).drop 16 = c := List.drop_left' (Block.bytes_length iv)
  simp only [split, htake, hdrop, Block.ofBytes_bytes]

/-- Settles O46: a framed string is the IV's sixteen bytes and the rest. -/
theorem splitUndoesFrame : Obligations.SplitUndoesFrame :=
  ⟨fun iv c => ⟨frame_length iv c, rfl, split_frame iv c⟩, fun _ h => ⟨Block.bytes_ofBytes _ (List.length_take_of_le h), rfl⟩⟩

/-- Settles O47: the second check's three conditions leave the multiples of 16 from 32 on. -/
theorem lengthChecksInClosedForm : Obligations.LengthChecksInClosedForm := by
  intro n
  refine ⟨beq_iff_eq, ?false, validEnvLen_iff n⟩
  case false => rw [validEnvLen_eq_false_iff]; omega

/-- R118: an envelope's length is accepted. -/
theorem validEnvLen_encodeFn (encrypt : Block → Block → Block) (k iv : Block) (m : Bytes) :
    validEnvLen (encodeFn encrypt k iv m).length = true := by
  rw [validEnvLen_iff, encodeFn_length]; omega

/-- Settles O48: the other forms and the bounds follow from the one with the quotient. -/
theorem envelopeLengthLaw : Obligations.EnvelopeLengthLaw := by
  intro encrypt k iv m
  refine ⟨?ceil, encodeFn_length _ _ _ _, ?padLen, ?ge, ?whole, ?le, validEnvLen_encodeFn encrypt k iv m⟩ <;> rw [encodeFn_length]
  case padLen => rw [padLen]; omega
  all_goals omega

/-- R116: an envelope that was framed decrypts to CbcDec of what stands after the IV. -/
theorem decryptEnvelope_frame (decrypt : Block → Block → Block) (k iv : Block) (c : Bytes)
    (h : validEnvLen (frame iv c).length = true) (hc : c.length % 16 = 0) :
    decryptEnvelope decrypt k (frame iv c) h = cbcDec decrypt k iv c hc := by
  simp only [decryptEnvelope, split_frame]

/-- Settles O49: the length is accepted, Split finds the IV, CbcDec gives the padded string and Unpad the string. -/
theorem decodeUndoesEncode : Obligations.DecodeUndoesEncode := by
  intro P hinv k iv m
  have hmod := pad_length_mod m
  have hplain : decryptEnvelope P.blockDecrypt k (encodeFn P.blockEncrypt k iv m) (validEnvLen_encodeFn _ k iv m) = pad m :=
    (decryptEnvelope_frame _ _ _ _ _ (by rwa [cbcEnc_length])).trans (cbcDecUndoesCbcEnc P hinv k iv (pad m) hmod _)
  rw [decodeFn, dif_pos (validEnvLen_encodeFn _ k iv m), hplain, unpadUndoesPad]

/-! ### The padding check depends on an envelope's last two blocks alone (R109, R119) -/

/-- R59: a block after the first `16 * i` bytes, counted from there. -/
theorem blockAt_drop (x : Bytes) (i j : Nat) : blockAt (x.drop (16 * i)) j = blockAt x (i + j) := by
  refine Vector.ext fun n hn => ?_
  rw [blockAt_get _ _ _ hn, blockAt_get _ _ _ hn, List.getD_eq_getElem?_getD, List.getD_eq_getElem?_getD, List.getElem?_drop]
  congr 2
  omega

/-- R109, R116: an envelope of `n + 2` blocks decodes exactly when the block its last two give ends in valid padding. -/
theorem exists_decodeFn_eq_ok_iff (decrypt : Block → Block → Block) (k : Block) {e : Bytes} {n : Nat}
    (h : e.length = 16 * (n + 2)) :
    (∃ m, decodeFn decrypt k e = .ok m) ↔
      endsInPadding (xor16 (decrypt k (blockAt e (n + 1))) (blockAt e n)) = true := by
  have hv : validEnvLen e.length = true := by rw [validEnvLen_iff]; omega
  have hlen : (decryptEnvelope decrypt k e hv).length = 16 * (n + 1) := by rw [decryptEnvelope_length]; omega
  rw [decodeFn, dif_pos hv, exists_unpad_eq_ok_iff hlen, blockAt_decryptEnvelope _ _ hv (by omega)]

/-- Settles O53: the two envelopes have the same last two blocks, which alone decide. -/
theorem tamperingBeforeTheLastTwoBlocksIsUndetected : Obligations.TamperingBeforeTheLastTwoBlocksIsUndetected := by
  intro decrypt k e e' hge hmod hlen hdrop
  obtain ⟨n, hn⟩ : ∃ n, e.length = 16 * (n + 2) := ⟨e.length / 16 - 2, by omega⟩
  have htail : e'.drop (16 * n) = e.drop (16 * n) := by
    rwa [show e.length - 32 = 16 * n by omega] at hdrop
  have hblock (j : Nat) : blockAt e' (n + j) = blockAt e (n + j) := by
    rw [← blockAt_drop, htail, blockAt_drop]
  have hblock_n : blockAt e' n = blockAt e n := hblock 0
  rw [exists_decodeFn_eq_ok_iff _ _ hn, exists_decodeFn_eq_ok_iff _ _ (hlen.trans hn), hblock 1, hblock_n]

end Sys2Proof.Machine
end

section
/-! PROOFS. What ENC and DEC leave in OUT, block by block: the CBC recurrence of the padded operand and of the envelope in IBUF
(40_datapath_functions.md R104, R106, R108, R109; 42_codec_commands.md R140, R141). -/

namespace Sys2Proof.Machine

/-! ### ENC -/

/-- R111, R115: block 0 of an envelope is its IV. -/
theorem blockAt_encodeFn_zero (encrypt : Block → Block → Block) (k iv : Block) (m : Bytes) :
    blockAt (encodeFn encrypt k iv m) 0 = iv :=
  blockAt_append_zero iv _

/-- R108, R115: each later block of an envelope encrypts a padded block chained on the block before. -/
theorem blockAt_encodeFn_succ (encrypt : Block → Block → Block) (k iv : Block) (m : Bytes) {i : Nat} (hi : i < m.length / 16 + 1) :
    blockAt (encodeFn encrypt k iv m) (i + 1) =
      encrypt k (xor16 (blockAt (pad m) i) (blockAt (encodeFn encrypt k iv m) i)) := by
  obtain ⟨-, hblock⟩ := cbcEncChainsOnThePreviousCiphertext encrypt k iv (pad m) (pad_length_mod m)
  have hsucc (j : Nat) : blockAt (encodeFn encrypt k iv m) (j + 1) =
      blockAt (cbcEnc encrypt k iv (pad m) (pad_length_mod m)) j := blockAt_append_succ iv _ j
  rw [hsucc, hblock i (by rw [pad_length]; omega)]
  cases i with
  | zero => rw [if_pos rfl, blockAt_encodeFn_zero]
  | succ i => rw [if_neg i.succ_ne_zero, hsucc, Nat.add_sub_cancel]

/-- R52: byte `a` of the operand. -/
theorem operand_getD {s : State} {a : Nat} (h : a < s.ilen.toNat) : (operand s).getD a 0 = Memory.read s.ibuf a := by
  rw [operand, operandLength, memRead_getD _ h, Nat.zero_add]

/-- R104: the blocks of the padded operand, byte by byte. -/
theorem blockAt_pad_operand (s : State) {i : Nat} (hi : i < s.ilen.toNat / 16 + 1) :
    blockAt (pad (operand s)) i = operandBlock s i := by
  refine Vector.ext fun j hj => ?_
  rw [blockAt_get _ _ _ hj, operandBlock, Vector.getElem_ofFn]
  split_ifs with hin
  · rw [pad, List.getD_append _ _ _ _ (by rwa [operand_length]), operand_getD hin]
  · rw [pad_getD (by rw [operand_length]; exact not_lt.mp hin) (by rw [pad_length, operand_length]; omega), operand_length,
      padByte, padLen]

/-- R6, R140: the envelope of an operand that fits IBUF fits OBUF. -/
theorem encodeFn_length_le_obufCap (P : Platform) (encrypt : Block → Block → Block) (k iv : Block) {m : Bytes}
    (h : m.length ≤ P.ibufCap) : (encodeFn encrypt k iv m).length ≤ P.obufCap := by
  rw [encodeFn_length, Platform.obufCap]; omega

/-- Settles O12: OUT is the envelope of the operand, whose blocks are the recurrence's. -/
theorem encOutputSatisfiesTheCbcRecurrence : Obligations.EncOutputSatisfiesTheCbcRecurrence := by
  intro s hkey hcap
  have hfits : (encodeFn Config.unit.blockEncrypt s.key (Config.unit.draw s.draws) (operand s)).length ≤ Config.unit.obufCap :=
    encodeFn_length_le_obufCap Config.unit _ _ _ (by rwa [operand_length])
  refine ⟨_, congrArg Host.Outcome.next (encCommand_of_checks hkey hcap), ?length, hfits, blockAt_encodeFn_zero _ _ _ _,
    fun i hi => ?block, olenWord_toNat (hfits.trans_lt (obufCap_lt _)), rfl, rfl⟩
  case length => rw [complete_out, encodeFn_length, operand_length, Nat.add_comm]
  case block => rw [complete_out, blockAt_encodeFn_succ _ _ _ _ (by rwa [operand_length]), blockAt_pad_operand s hi]

/-! ### DEC -/

/-- R141: DEC past its pre-checks ends as DecodeFn does. -/
theorem decCommand_of_checks {P : Platform} {s : State} (hkey : s.keyValid = true) (hlen : validEnvLen s.ilen.toNat = true)
    (hcap : s.ilen.toNat ≤ P.ibufCap) :
    (decodeFn P.blockDecrypt s.key (operand s) = .error .paddingValidation ∧ decCommand P s = raise .paddingValidation s) ∨
    ∃ m, decodeFn P.blockDecrypt s.key (operand s) = .ok m ∧ decCommand P s = complete m s := by
  obtain ⟨hno, -⟩ | ⟨-, hno, -⟩ | ⟨-, -, hover, -⟩ | ⟨-, -, -, h⟩ | ⟨-, -, -, h⟩ := decCommand_cases P s
  · simp [hkey] at hno
  · simp [hlen] at hno
  · omega
  · exact .inl h
  · exact .inr h

/-- R109: block `i` of the decrypted operand, from the two blocks of IBUF. -/
theorem blockAt_decryptEnvelope_operand (P : Platform) (s : State) (h : validEnvLen (operand s).length = true) {i : Nat}
    (hi : 16 * (i + 2) ≤ s.ilen.toNat) :
    blockAt (decryptEnvelope P.blockDecrypt s.key (operand s) h) i = decryptedBlock P s i := by
  rw [blockAt_decryptEnvelope _ _ h (by rwa [operand_length]), blockAt_operand (by omega), blockAt_operand (by omega),
    decryptedBlock]

/-- R106: the last byte of a whole number of blocks is the last block's. -/
theorem getLast?_eq_blockAt {x : Bytes} {i : Nat} (h : x.length = 16 * (i + 1)) : x.getLast? = some (blockAt x i)[15] := by
  have hidx : x.length - 1 = 16 * i + 15 := by omega
  rw [List.getLast?_eq_getElem?, hidx, List.getElem?_eq_getElem (by omega), blockAt_get, List.getD_eq_getElem]

/-- R106: what Unpad leaves of a whole number of blocks is all but as many bytes as the last one names. -/
theorem unpad_ok_eq_take {x m : Bytes} {i : Nat} (hx : x.length = 16 * (i + 1)) (h : unpad x = .ok m) :
    m.length + paddingValue (blockAt x i) = x.length ∧ m = x.take m.length := by
  obtain ⟨b, hlast, -, -, hle, -, rfl⟩ := unpad_eq_ok_iff_checks.mp h
  have hb : (blockAt x i)[15] = b := Option.some_inj.mp ((getLast?_eq_blockAt hx).symm.trans hlast)
  rw [paddingValue, hb, List.length_take_of_le (Nat.sub_le _ _)]
  exact ⟨Nat.sub_add_cancel hle, rfl⟩

/-- R141: the plaintext a DEC finds has the bytes of the decrypted blocks, less as many as the last one names. -/
theorem decodeFn_operand_ok {P : Platform} {s : State} (hlen : validEnvLen s.ilen.toNat = true) {m : Bytes}
    (h : decodeFn P.blockDecrypt s.key (operand s) = .ok m) :
    m.length + 16 + paddingValue (lastDecryptedBlock P s) = s.ilen.toNat ∧
    ∀ (i : Nat) (j : Fin 16), 16 * i + j.val < m.length → m.getD (16 * i + j.val) 0 = (decryptedBlock P s i)[j] := by
  have hop : validEnvLen (operand s).length = true := by rwa [operand_length]
  obtain ⟨hge, hmod⟩ := (validEnvLen_iff _).mp hlen
  rw [decodeFn, dif_pos hop] at h
  have hplain : (decryptEnvelope P.blockDecrypt s.key (operand s) hop).length = 16 * (s.ilen.toNat / 16 - 2 + 1) := by
    rw [decryptEnvelope_length, operand_length]; omega
  obtain ⟨hsum, htake⟩ := unpad_ok_eq_take hplain h
  rw [blockAt_decryptEnvelope_operand P s hop (by omega), ← lastDecryptedBlock] at hsum
  refine ⟨by omega, fun i j hj => ?byte⟩
  case byte =>
    have hbyte := blockAt_get (decryptEnvelope P.blockDecrypt s.key (operand s) hop) i j.val j.isLt
    rw [blockAt_decryptEnvelope_operand P s hop (by omega)] at hbyte
    rw [htake, List.getD_eq_getElem?_getD, List.getElem?_take_of_lt hj, ← List.getD_eq_getElem?_getD, ← hbyte]
    rfl

/-- Settles O14: DecodeFn succeeds exactly when the last decrypted block ends in valid padding, and both ends of DEC follow it. -/
theorem decOutputSatisfiesTheCbcRecurrence : Obligations.DecOutputSatisfiesTheCbcRecurrence := by
  intro s hkey hge hmod hcap
  have hlen : validEnvLen s.ilen.toNat = true := (validEnvLen_iff _).mpr ⟨hge, hmod⟩
  have hiff := exists_decodeFn_operand_eq_ok_iff Config.unit hlen
  obtain ⟨hdec, hcmd⟩ | ⟨m, hdec, hcmd⟩ := decCommand_of_checks hkey hlen hcap
  · refine ⟨_, congrArg Host.Outcome.next hcmd, fun hpad => ?_, fun _ => ⟨rfl, rfl, rfl, rfl⟩⟩
    obtain ⟨m, hok⟩ := hiff.mpr hpad
    exact nomatch hdec.symm.trans hok
  · obtain ⟨hsum, hbytes⟩ := decodeFn_operand_ok hlen hdec
    refine ⟨_, congrArg Host.Outcome.next hcmd, fun _ => ⟨rfl, rfl, rfl, hsum, hbytes⟩, fun hno => ?_⟩
    exact absurd (hiff.mp ⟨m, hdec⟩) (ne_true_of_eq_false hno)

end Sys2Proof.Machine
end

section
/-! PROOFS. The block-level datapath gives what the commands give (40_datapath_functions.md R120): each loop contributes the blocks of
CbcEnc or CbcDec one after another, and DEC's padding check on the last byte written is Unpad's. -/

namespace Sys2Proof.Machine

/-- R60: a contribution right after the bytes so far appends. -/
theorem contribute_at_length {result : Bytes} {a : Nat} (h : result.length = a) (v : Bytes) :
    contribute result a v = result ++ v := by
  subst h
  simp [contribute]

/-- A loop whose turns leave NBLK leaves it. -/
theorem foldl_nblk {turn : Lane → Nat → Lane} (hturn : ∀ l i, (turn l i).work.nblk = l.work.nblk) (l : Lane) (is : List Nat) :
    (is.foldl turn l).work.nblk = l.work.nblk := by
  induction is generalizing l with
  | nil => rfl
  | cons i rest ih => rw [List.foldl_cons, ih, hturn]

section
variable (P : Platform) (s : State)

theorem encTurn_nblk (l : Lane) (i : Nat) : (encTurn P s l i).work.nblk = l.work.nblk := by rw [encTurn]

theorem decTurn_nblk (l : Lane) (i : Nat) : (decTurn P s l i).work.nblk = l.work.nblk := by rw [decTurn]

/-! ### ENC -/

/-- R120: the ENC datapath writes NBLK blocks after the IV. -/
theorem encLane_nblk : (encLane P s).work.nblk = s.ilen.toNat / 16 + 1 := foldl_nblk (encTurn_nblk P s) _ _

/-- The loop of ENC appends the encrypted blocks, chained on CHAIN. -/
theorem foldl_encTurn_result (l : Lane) {i : Nat} (n : Nat) (h : l.result.length = 16 * i) :
    ((List.range' i n).foldl (encTurn P s) l).result =
      l.result ++ joinBlocks (cbcEncBlocks P.blockEncrypt s.key l.work.chain
        ((List.range' i n).map (paddedBlock s l.work.padLen))) := by
  induction n generalizing i l with
  | zero => simp [cbcEncBlocks]
  | succ n ih =>
    have hturn : (encTurn P s l i).result = l.result ++ (encTurn P s l i).work.chain.bytes := contribute_at_length h _
    have hlen : (encTurn P s l i).result.length = 16 * (i + 1) := by
      rw [hturn, List.length_append, Block.bytes_length, h]; rfl
    rw [List.range'_succ, List.foldl_cons, ih _ hlen, hturn, List.append_assoc]
    rfl

end

/-- R103: PADLEN holds PadLen, which as a byte is the padding byte. -/
theorem setWidth_padLen (n : Nat) : (BitVec.ofNat 5 (16 - n % 16)).setWidth 8 = BitVec.ofNat 8 (16 - n % 16) := by
  refine BitVec.eq_of_toNat_eq ?_
  simp only [BitVec.toNat_setWidth, BitVec.toNat_ofNat]
  omega

/-- R120: the padding unit's block `i + 1` is block `i` of the padded operand. -/
theorem paddedBlock_succ (s : State) (i : Nat) :
    paddedBlock s (BitVec.ofNat 5 (16 - operandLength s % 16)) (i + 1) = operandBlock s i := by
  rw [paddedBlock, setWidth_padLen]
  rfl

/-- R120: the padding unit's blocks are those of the padded operand. -/
theorem map_paddedBlock (s : State) :
    (List.range' 1 (operandLength s / 16 + 1)).map (paddedBlock s (BitVec.ofNat 5 (16 - operandLength s % 16))) =
      blocks (pad (operand s)) (pad_length_mod _) := by
  refine List.ext_getElem (by simp [operandLength]) fun i hi hi' => ?_
  have hlt : i < s.ilen.toNat / 16 + 1 := by simpa [operandLength] using hi
  rw [List.getElem_map, List.getElem_range', Nat.one_mul, Nat.add_comm, paddedBlock_succ, blocks_getElem,
    blockAt_pad_operand s hlt]

/-- R120: the bytes the ENC datapath contributes are the envelope. -/
theorem encLane_result (P : Platform) (s : State) :
    (encLane P s).result = encodeFn P.blockEncrypt s.key (P.draw s.draws) (operand s) := by
  rw [encLane, contribute_at_length (result := []) (a := 0) rfl, foldl_encTurn_result _ _ _ _ (Block.bytes_length _), map_paddedBlock]
  rfl

/-- Settles O51: the datapath's result is the envelope, and completion clears its working registers. -/
theorem encDatapathRefinesEnc : Obligations.EncDatapathRefinesEnc := by
  intro P s hkey hcap
  have hall : (encLane P s).result.length = 16 + 16 * (encLane P s).work.nblk := by
    rw [encLane_result, encodeFn_length, operand_length, encLane_nblk]
  rw [encDatapath, ← hall, List.take_length, encLane_result, encCommand_of_checks hkey hcap]
  rfl

/-! ### DEC -/

/-- The loop of DEC appends the decrypted blocks, chained on CHAIN. -/
theorem foldl_decTurn_result (P : Platform) (s : State) (l : Lane) {i : Nat} (n : Nat) (h : l.result.length = 16 * i) :
    ((List.range' (i + 1) n).foldl (decTurn P s) l).result =
      l.result ++ joinBlocks (cbcDecBlocks P.blockDecrypt s.key l.work.chain
        ((List.range' (i + 1) n).map fun i => memReadBlock s.ibuf (16 * i))) := by
  induction n generalizing i l with
  | zero => simp [cbcDecBlocks]
  | succ n ih =>
    have hturn : (decTurn P s l (i + 1)).result = l.result ++ (decTurn P s l (i + 1)).work.t.bytes := contribute_at_length h _
    have hlen : (decTurn P s l (i + 1)).result.length = 16 * (i + 1) := by
      rw [hturn, List.length_append, Block.bytes_length, h]; rfl
    rw [List.range'_succ, List.foldl_cons, ih _ hlen, hturn, List.append_assoc]
    rfl

/-- R112, R120: the blocks DEC reads from IBUF after the IV are those of the envelope. -/
theorem map_memReadBlock (s : State) (h : 16 ≤ (operand s).length) (hmod : (split (operand s) h).2.length % 16 = 0) :
    ((List.range' 1 (operandLength s / 16 - 1)).map fun i => memReadBlock s.ibuf (16 * i)) =
      blocks (split (operand s) h).2 hmod := by
  have hrest : (split (operand s) h).2.length = s.ilen.toNat - 16 := by simp [split]
  refine List.ext_getElem (by rw [List.length_map, List.length_range', blocks_length, hrest, operandLength]; omega)
    fun i hi hi' => ?_
  have hlt : i < s.ilen.toNat / 16 - 1 := by simpa [operandLength] using hi
  rw [List.getElem_map, List.getElem_range', Nat.one_mul, Nat.add_comm, blocks_getElem, ← blockAt_succ_eq_split_snd,
    blockAt_operand (by omega)]

/-- R120: the bytes the DEC datapath contributes are CbcDec's. -/
theorem decLane_result (P : Platform) (s : State) (h : validEnvLen (operand s).length = true) :
    (decLane P s).result = decryptEnvelope P.blockDecrypt s.key (operand s) h := by
  have hge := validEnvLen_ge h
  have hiv : memReadBlock s.ibuf 0 = (split (operand s) hge).1 := by
    rw [← blockAt_zero_eq_split_fst, blockAt_operand (by simpa using hge)]
  rw [decLane, foldl_decTurn_result (i := 0) (h := rfl), map_memReadBlock s hge (by simpa [split] using validEnvLen_rest h), hiv]
  rfl

/-- R106, R120: on at least one block Unpad is decided by the datapath's one check, since any run of up to 16 bytes fits. -/
theorem unpad_of_getLast? {x : Bytes} {b : Byte} (hlast : x.getLast? = some b) (hlen : 16 ≤ x.length) :
    unpad x =
      if b.toNat < 1 ∨ 16 < b.toNat ∨ (x.drop (x.length - b.toNat)).any (fun c => c != b) then .error .paddingValidation
      else .ok (x.take (x.length - b.toNat)) := by
  have hany : (x.drop (x.length - b.toNat)).any (fun c => c != b) = !(x.drop (x.length - b.toNat)).all (fun c => c == b) :=
    List.not_all_eq_any_not.symm
  rw [unpad, hlast]
  dsimp only
  by_cases hrange : b.toNat < 1 ∨ 16 < b.toNat
  · rw [if_pos hrange, if_pos (hrange.imp_right .inl)]
  · have hfits : ¬ x.length < b.toNat := by omega
    simp only [if_neg hrange, if_neg hfits, ← or_assoc, or_iff_right hrange, hany]
    cases (x.drop (x.length - b.toNat)).all (fun c => c == b) <;> rfl

/-- R120: the DEC datapath writes NBLK blocks. -/
theorem decLane_nblk (P : Platform) (s : State) : (decLane P s).work.nblk = s.ilen.toNat / 16 - 1 :=
  foldl_nblk (decTurn_nblk P s) _ _

/-- R120: PB is the last byte the DEC datapath wrote. -/
theorem decLane_pb (P : Platform) (s : State) {n : Nat} (hn : (decLane P s).work.nblk = n + 1)
    (hlen : (decLane P s).result.length = 16 * (n + 1)) : (decLane P s).result.getLast? = some (decLane P s).work.pb := by
  have hpb : (decLane P s).work.pb = (decLane P s).result.getD ((decLane P s).result.length - 1) 0 := by
    rw [hlen, ← hn, decLane_nblk]; rfl
  rw [hpb, List.getLast?_eq_getElem?, List.getElem?_eq_getElem (by omega), List.getD_eq_getElem]

/-- Settles O52: the datapath's bytes are CbcDec's, its check is Unpad's, and completion clears its working registers. -/
theorem decDatapathRefinesDec : Obligations.DecDatapathRefinesDec := by
  intro P s hkey hge hmod hcap
  have hlen : validEnvLen s.ilen.toNat = true := (validEnvLen_iff _).mpr ⟨hge, hmod⟩
  have hop : validEnvLen (operand s).length = true := by rwa [operand_length]
  have hresult : (decLane P s).result.length = 16 * (decLane P s).work.nblk := by
    rw [decLane_result P s hop, decryptEnvelope_length, operand_length, decLane_nblk]; omega
  obtain ⟨n, hn⟩ : ∃ n, (decLane P s).work.nblk = n + 1 := ⟨s.ilen.toNat / 16 - 2, by rw [decLane_nblk]; omega⟩
  have hdec : decodeFn P.blockDecrypt s.key (operand s) = unpad (decLane P s).result := by
    rw [decodeFn, dif_pos hop, decLane_result P s hop]
  rw [unpad_of_getLast? (decLane_pb P s hn (hn ▸ hresult)) (by omega), hresult] at hdec
  rw [decDatapath]
  dsimp only
  split_ifs with hbad
  · rw [if_pos hbad] at hdec
    obtain ⟨-, hcmd⟩ | ⟨m, hok, -⟩ := decCommand_of_checks hkey hlen hcap
    · rw [hcmd]; rfl
    · exact nomatch hdec.symm.trans hok
  · rw [if_neg hbad] at hdec
    obtain ⟨hno, -⟩ | ⟨m, hok, hcmd⟩ := decCommand_of_checks hkey hlen hcap
    · exact nomatch hdec.symm.trans hno
    · obtain rfl := Except.ok.inj (hdec.symm.trans hok)
      have hp : (BitVec.ofNat 5 (decLane P s).work.pb.toNat).toNat = (decLane P s).work.pb.toNat := by
        rw [BitVec.toNat_ofNat, Nat.mod_eq_of_lt (by omega)]
      rw [hcmd, hp]
      rfl

end Sys2Proof.Machine
end

section
/-! PROOFS. The round trip at the level of the unit (42_codec_commands.md R143): what a COPYBACK leaves as the operand
(30_encoding.md R89), and DEC of the envelope it copied. -/

namespace Sys2Proof.Machine

/-! ### Runs of host events (20_memory.md R65) -/

theorem runEvents_cons {P : Platform} {e : HostEvent} {s t : State} (h : hostEvent P e s = .next t) (es : List HostEvent) :
    runEvents P (e :: es) s = runEvents P es t := by
  rw [runEvents, h]

theorem runEvents_append {P : Platform} {es : List HostEvent} {s t : State} (h : runEvents P es s = .next t)
    (es' : List HostEvent) : runEvents P (es ++ es') s = runEvents P es' t := by
  induction es generalizing s with
  | nil => obtain rfl := Host.Outcome.next.inj h; rfl
  | cons e rest ih =>
    rw [runEvents] at h
    cases he : hostEvent P e s with
    | next u => rw [he] at h; exact (runEvents_cons he _).trans (ih h)
    | fault r => rw [he] at h; exact nomatch h
    | refused r => rw [he] at h; exact nomatch h

/-- R57, R89: the copying part of a COPYBACK puts the bytes into IBUF from its index on, and touches nothing below it, KEY or
KEYVALID. -/
theorem runEvents_copyFrom {P : Platform} (x : Bytes) {a : Nat} (s : State) (h : a + x.length ≤ P.ibufCap) :
    ∃ t, runEvents P (copyFrom a x) s = .next t ∧ t.key = s.key ∧ t.keyValid = s.keyValid ∧
      (∀ q, q < a → Memory.read t.ibuf q = Memory.read s.ibuf q) ∧
      ∀ j, (hj : j < x.length) → Memory.read t.ibuf (a + j) = x[j] := by
  induction x generalizing a s with
  | nil => exact ⟨s, rfl, rfl, rfl, fun _ _ => rfl, nofun⟩
  | cons b rest ih =>
    rw [List.length_cons] at h
    have hcap : a < P.ibufCap := by omega
    obtain ⟨t, hrun, hkey, hvalid, hbelow, hbytes⟩ :=
      ih (a := a + 1) (respond .done (writeIbuf a b (respond (.byte (readObuf a s)) s))) (by omega)
    refine ⟨t, ?run, hkey, hvalid, fun q hq => ?below, fun j hj => ?bytes⟩
    case run =>
      have hread := runEvents_cons (e := rbObuf a) (access_readObuf (hcap.trans_le (Nat.le_add_right _ _)) s)
      have hwrite := runEvents_cons (e := wbIbuf a b) (access_writeIbuf hcap b (respond (.byte (readObuf a s)) s))
      rw [copyFrom, hread, hwrite, hrun]
    case below =>
      rw [hbelow q (by omega)]
      exact Memory.read_write_other _ b hq.ne
    case bytes =>
      cases j with
      | zero =>
        rw [Nat.add_zero, hbelow a (Nat.lt_succ_self a)]
        exact Memory.read_write_same _ _ _
      | succ j =>
        have hsum : a + (j + 1) = a + 1 + j := by omega
        rw [hsum]
        exact hbytes j (Nat.lt_of_succ_lt_succ hj)

/-- R89: a COPYBACK of a result that fits IBUF makes it the operand. -/
theorem runEvents_copybackEvents {P : Platform} {s : State} (h : s.out.length ≤ P.ibufCap) :
    ∃ t, runEvents P (copybackEvents s) s = .next t ∧ t.key = s.key ∧ t.keyValid = s.keyValid ∧ operand t = s.out := by
  have hfits : s.out.length < 2 ^ 32 := by have := P.cap_lt; omega
  obtain ⟨t, hrun, hkey, hvalid, -, hbytes⟩ :=
    runEvents_copyFrom (a := 0) s.out (respond (.word (regRead .olen s)) s) (by rwa [Nat.zero_add])
  refine ⟨respond .done (setIlen (olenWord s) t), ?run, hkey, hvalid, ?operand⟩
  case run =>
    have holen := runEvents_cons (P := P) (e := rdReg .olen) (access_readReg P .olen s)
    have hilen := runEvents_cons (P := P) (e := wrIlen (olenWord s)) (access_writeReg P .ilen (olenWord s) t)
    rw [copybackEvents, List.cons_append, holen, runEvents_append hrun, hilen, runEvents]
  case operand =>
    have hlen : (operand (respond .done (setIlen (olenWord s) t))).length = s.out.length :=
      (operand_length _).trans (olenWord_toNat hfits)
    refine List.ext_getElem hlen fun j hj hj' => ?_
    rw [← List.getD_eq_getElem _ 0 hj, operand_getD (by rwa [← operand_length]), ← hbytes j hj', Nat.zero_add]
    rfl

/-! ### ENC, COPYBACK, DEC -/

/-- R117, R141: DEC of an envelope of `m` under its own key and within IBUF succeeds with `m`. -/
theorem decCommand_of_operand_eq_encodeFn {P : Platform} (hinv : P.CipherInverse) {s : State} {iv : Block} {m : Bytes}
    (hkey : s.keyValid = true) (hop : operand s = encodeFn P.blockEncrypt s.key iv m)
    (hcap : (operand s).length ≤ P.ibufCap) : decCommand P s = complete m s := by
  have hlen : validEnvLen s.ilen.toNat = true := by
    rw [← operand_length, hop]; exact validEnvLen_encodeFn _ _ _ _
  have hdec : decodeFn P.blockDecrypt s.key (operand s) = .ok m := by
    rw [hop]; exact decodeUndoesEncode P hinv s.key iv m
  obtain ⟨hno, -⟩ | ⟨m', hok, hcmd⟩ := decCommand_of_checks hkey hlen (by rwa [← operand_length])
  · exact nomatch hdec.symm.trans hno
  · obtain rfl := Except.ok.inj (hdec.symm.trans hok)
    exact hcmd

/-- Settles O50: COPYBACK makes ENC's envelope the operand, KEY stands, and DEC of it gives the first operand. -/
theorem encCopybackDecReturnsTheOperand : Obligations.EncCopybackDecReturnsTheOperand := by
  intro P hinv s hkey hroom
  have hout : (encCommand P s).out = encodeFn P.blockEncrypt s.key (P.draw s.draws) (operand s) := by
    rw [encCommand_of_checks hkey (by omega), complete_out]
  obtain ⟨hceil, hfloor, -⟩ := envelopeLengthLaw P.blockEncrypt s.key (P.draw s.draws) (operand s)
  rw [← hout, operand_length] at hceil hfloor
  have hcap : (encCommand P s).out.length ≤ P.ibufCap := by rwa [hfloor]
  have hkeys : (encCommand P s).key = s.key ∧ (encCommand P s).keyValid = true := by
    rw [encCommand_of_checks hkey (by omega)]; exact ⟨rfl, hkey⟩
  obtain ⟨hkey', hvalid'⟩ := hkeys
  obtain ⟨t, hrun, htkey, htvalid, hop⟩ := runEvents_copybackEvents hcap
  have hdec : decCommand P t = complete (operand s) t :=
    decCommand_of_operand_eq_encodeFn hinv (htvalid.trans hvalid') (by rw [hop, hout, htkey, hkey']) (by rwa [hop])
  refine ⟨?olen, t, hrun, ?ok, ?length, fun a ha => ?bytes⟩
  case olen =>
    have hlt := P.cap_lt
    rw [olenWord_toNat (by omega), hceil]
  case ok => rw [hdec, complete_ok]
  case length => rw [hdec, olenWord, complete_out, operand_length, BitVec.ofNat_toNat, BitVec.setWidth_eq]
  case bytes => rw [hdec, readObuf, complete_out, operand_getD ha]

end Sys2Proof.Machine
end
